-- ==== Sys2Proof/Word.lean ====
section
/-! DEFINITION. The values the machine moves: 15-bit words, 16-bit raw memory words, bytes, register indices,
and the three classes of a raw operand word. Types only; every operation on them stands in Decode.lean or under Machine/. -/

namespace Sys2Proof

/-- A value of the 15-bit domain [0, 32767]: what a register holds and the ALU computes (R7, R13, R20). -/
abbrev Word := BitVec 15

/-- A 16-bit raw word: one memory cell, one encoded operand, one stack entry, the pc (R7, R8, R16, R25, R39). -/
abbrev Raw := BitVec 16

/-- One character of the OUT or IN channel (R7 OUT_BITS, R8 IN_BITS). -/
abbrev Byte := BitVec 8

/-- The index of one of the 8 registers (R7 NREGS, R20). -/
abbrev RegIdx := Fin 8

/-- A raw operand word by its class (R57): a literal denotes itself, a register reference names `x[i]`, and
any other raw value is invalid and is kept as it stands. -/
inductive Operand where
  | literal  (v : Word)
  | register (i : RegIdx)
  | invalid  (w : Raw)
  deriving DecidableEq, Repr

/-- What an instruction does with an operand: reads it as a value, or writes the register it names (R14, R60). -/
inductive Role where
  | source
  | destination
  deriving DecidableEq, Repr

end Sys2Proof
end

