-- ==== Sys2Proof/Config.lean ====
section
/-! DEFINITION. What is fixed for a whole run, and the fixed parameters of R7 that are not widths. -/

namespace Sys2Proof

/-- The configuration of a run: "The configuration holds MEM_WORDS, STACK_CAP and nothing else" (R83).
The launch sets it and no step changes it (R8, R41). It is held in State, so that a statement over every state is a
statement over every configuration (log 3). -/
structure Config where
  /-- MEM_WORDS, the number of memory cells (R8, R39). -/
  memWords : Nat
  /-- STACK_CAP, the greatest stack depth; `none` is unbounded, as the source has it (R8, R26, D11). -/
  stackCap : Option Nat
  deriving DecidableEq, Repr

/-- The greatest MEM_WORDS the spec admits (R8, R41, D2). -/
abbrev Config.maxMemWords : Nat := 32768

end Sys2Proof
end

