-- ==== Sys2Proof/Machine/State.lean ====
section
/-! DEFINITION. The state of the block, its status, and the state right after reset. Plain data; the operations on it are in Ops.lean. -/

namespace Sys2Proof.Machine

/-- The kinds of fault a step can record (R117). -/
inductive FaultKind where
  /-- A fetch, `rmem` or `wmem` at an address >= MEM_WORDS (R118). -/
  | outOfBounds
  /-- An opcode word outside 0..21 (R119). -/
  | unknownOpcode
  /-- An operand word its role forbids (R120). -/
  | invalidOperand
  /-- `pop` or `ret` with an empty stack (R121). -/
  | stackUnderflow
  /-- `in` when the source is closed and holds no byte (R122). -/
  | inputExhausted
  /-- `mod` with divisor 0 (R123). -/
  | divideByZero
  /-- `push` or `call` with the stack at a finite STACK_CAP (R124). -/
  | stackOverflow
  deriving DecidableEq, Repr

/-- The block's one status register (R31). -/
inductive Status where
  | running
  | halted
  | faulted (kind : FaultKind) (ip : Raw)
  deriving DecidableEq, Repr

/-- Memory as the bytes of the launch image's order: cell `k` is byte `2k` (low) and byte `2k + 1` (high) (R45, R139).
Addresses rise strictly and no listed byte is `Memory.unlisted`, so equal memories are equal lists (log 1). -/
abbrev Memory := List Host.Cell

/-- What an unlisted byte below `2 * MEM_WORDS` reads as. The launch gives every cell a value (R139), and only the bytes
that are not zero are listed, so this stands for a byte that is zero, not for one nothing has written (log 1). -/
abbrev Memory.unlisted : Byte := 0

/-- The canonical form of a memory. -/
abbrev Memory.wf (m : Memory) : Prop :=
  m.Pairwise (fun x y => x.1 < y.1) ∧ ∀ c ∈ m, c.2 ≠ Memory.unlisted

/-- The state: the tuple (pc, x[0..7], stack, mem, status) of 10_state.md, the run's configuration (R83) and the two channels. -/
structure State where
  /-- MEM_WORDS and STACK_CAP (R8, R83). -/
  cfg : Config
  /-- The instruction pointer, a cell address (R16). -/
  pc : Raw
  /-- The registers x[0..7] (R20). -/
  regs : Vector Word 8
  /-- The call/argument stack, top entry first (R25; log 9). -/
  stack : List Raw
  /-- The memory (R39; log 1). -/
  mem : Memory
  /-- The status register (R31). -/
  status : Status
  /-- The OUT channel's history, in emission order (R111). -/
  output : List Byte
  /-- The model's own: the bytes the host has ready on the IN channel, next one first (R112; log 5). -/
  input : List Byte
  /-- The model's own: the host has closed the input source (R112 `EndOfInput`; log 5). -/
  inputClosed : Bool
  deriving DecidableEq, Repr

/-- What a step answers when the block takes none. Only `step` answers these, never a meaning: every fault of an
instruction is taken as a next state whose status records it (R127; log 4). -/
inductive Fault where
  /-- Raised by `step` in a state whose status is Halted: the run has ended with success and takes no step (R32, R71). Safe. -/
  | runHalted
  /-- Raised by `step` in a state whose status is Faulted: the run has ended and takes no step (R32, R71). Safe. -/
  | runFaulted (kind : FaultKind) (ip : Raw)
  deriving DecidableEq, Repr

/-- Why the model gives no meaning. No arm of `exec` answers it: every instruction is modelled. -/
inductive Refusal where
  /-- Would be raised by an arm of `exec` for an instruction without a meaning; safe, and raised by none. -/
  | notModelled (mnemonic : String)
  deriving DecidableEq, Repr

/-- What a step, an instruction or a fetch answers. -/
abbrev Result := Host.Outcome State Fault Refusal

/-- The answer of the IN channel to one request (R112). -/
inductive InAnswer where
  | byte (c : Byte)
  | endOfInput
  | notYet
  deriving DecidableEq, Repr

/-- The machine right after reset: the launch of the empty image, with no preload and an unbounded stack (R38, R139, R143;
logs 2 and 3). A program comes in by `launch` or `State.withFetchWord`. -/
def State.reset : State where
  cfg := { memWords := 0, stackCap := none }
  pc := 0
  regs := Vector.replicate 8 0
  stack := []
  mem := []
  status := .running
  output := []
  input := []
  inputClosed := false

end Sys2Proof.Machine
end

