-- ==== Sys2Proof/Machine/Alu.lean ====
section
/-! DEFINITION. The 15-bit ALU: exact results over the naturals, reduced once at the end (R99, R100, R101). -/

namespace Sys2Proof.Machine

/-- MODULUS (R7). -/
abbrev modulus : Nat := 32768

/-- The last reduction: an exact result mod 32768, which is its bits [14:0] (R100). -/
def narrow (exact : Nat) : Word := BitVec.ofNat 15 (exact % modulus)

/-- `add` (R101, R102). -/
def aluAdd (b c : Word) : Word := narrow (b.toNat + c.toNat)

/-- `mult` (R101, R103). -/
def aluMult (b c : Word) : Word := narrow (b.toNat * c.toNat)

/-- `mod` for a divisor that is not 0 (R101, R104). -/
def aluMod (b c : Word) : Word := narrow (b.toNat % c.toNat)

/-- `and` (R101, R105). -/
def aluAnd (b c : Word) : Word := b &&& c

/-- `or` (R101, R106). -/
def aluOr (b c : Word) : Word := b ||| c

/-- `not` on 15 bits (R101, R107). -/
def aluNot (b : Word) : Word := ~~~ b

end Sys2Proof.Machine
end

