-- ==== Sys2Proof/Syntax.lean ====
section
/-! DEFINITION. The instructions: one constructor per row of spec/opcode_table.json, its operands in the order a, b, c (R55, R64). -/

namespace Sys2Proof

/-- The 22 instructions. Every operand is kept in the class of its raw word (R57), whatever its role: a word in memory
may be executed with an operand that its role forbids, and the instruction then faults when it runs (R67). -/
inductive Instr where
  | halt
  | set  (a b : Operand)
  | push (a : Operand)
  | pop  (a : Operand)
  | eq   (a b c : Operand)
  | gt   (a b c : Operand)
  | jmp  (a : Operand)
  | jt   (a b : Operand)
  | jf   (a b : Operand)
  | add  (a b c : Operand)
  | mult (a b c : Operand)
  | mod  (a b c : Operand)
  | and  (a b c : Operand)
  | or   (a b c : Operand)
  | not  (a b : Operand)
  | rmem (a b : Operand)
  | wmem (a b : Operand)
  | call (a : Operand)
  | ret
  | out  (a : Operand)
  /-- The opcode `in`; the constructor's name differs because `in` is a word of Lean's own. -/
  | inp  (a : Operand)
  | noop
  deriving DecidableEq, Repr

end Sys2Proof
end

