-- ==== Sys2Proof/WellFormed.lean ====
section
/-! DEFINITION. Which terms are instructions of memory (`wellFormed`: every operand is the class of some raw word), and
which of those pass operand resolution (`legal`: every operand is allowed in its role, R60, R67). -/

namespace Sys2Proof

/-- An operand is well formed when it is the class of some raw word: a word kept as invalid lies in 32776..65535 (R57). -/
def Operand.wellFormed : Operand → Bool
  | .literal _  => true
  | .register _ => true
  | .invalid w  => decide (32776 ≤ w.toNat)

/-- An operand fits its role: a source is a literal or a register, a destination is a register (R58, R59, R67). -/
def Operand.fits : Role → Operand → Bool
  | .source,      .literal _  => true
  | .source,      .register _ => true
  | .source,      .invalid _  => false
  | .destination, .literal _  => false
  | .destination, .register _ => true
  | .destination, .invalid _  => false

/-- The operands in the order a, b, c (R55). -/
def Instr.operands : Instr → List Operand
  | .halt       => []
  | .set a b    => [a, b]
  | .push a     => [a]
  | .pop a      => [a]
  | .eq a b c   => [a, b, c]
  | .gt a b c   => [a, b, c]
  | .jmp a      => [a]
  | .jt a b     => [a, b]
  | .jf a b     => [a, b]
  | .add a b c  => [a, b, c]
  | .mult a b c => [a, b, c]
  | .mod a b c  => [a, b, c]
  | .and a b c  => [a, b, c]
  | .or a b c   => [a, b, c]
  | .not a b    => [a, b]
  | .rmem a b   => [a, b]
  | .wmem a b   => [a, b]
  | .call a     => [a]
  | .ret        => []
  | .out a      => [a]
  | .inp a      => [a]
  | .noop       => []

/-- The roles of the operands, in the order a, b, c (R56, R60). -/
def Instr.roles : Instr → List Role
  | .halt       => []
  | .set _ _    => [.destination, .source]
  | .push _     => [.source]
  | .pop _      => [.destination]
  | .eq _ _ _   => [.destination, .source, .source]
  | .gt _ _ _   => [.destination, .source, .source]
  | .jmp _      => [.source]
  | .jt _ _     => [.source, .source]
  | .jf _ _     => [.source, .source]
  | .add _ _ _  => [.destination, .source, .source]
  | .mult _ _ _ => [.destination, .source, .source]
  | .mod _ _ _  => [.destination, .source, .source]
  | .and _ _ _  => [.destination, .source, .source]
  | .or _ _ _   => [.destination, .source, .source]
  | .not _ _    => [.destination, .source]
  | .rmem _ _   => [.destination, .source]
  | .wmem _ _   => [.source, .source]
  | .call _     => [.source]
  | .ret        => []
  | .out _      => [.source]
  | .inp _      => [.destination]
  | .noop       => []

/-- The instruction is what some words of memory decode to (R55, R57). -/
def Instr.wellFormed (i : Instr) : Bool := i.operands.all Operand.wellFormed

/-- Every operand fits its role, so that no `InvalidOperand` can be raised (R60, R67). -/
def Instr.legal (i : Instr) : Bool := (i.roles.zip i.operands).all fun p => p.2.fits p.1

end Sys2Proof
end

