-- ==== Sys2Proof/Decode.lean ====
section
/-! DEFINITION. Raw words to instructions and back: the operand classes (R57), the arity table (R62), the opcode map (R64),
a decoder that is total on any list of words and rejects by name, and the encoder written from the same tables. -/

namespace Sys2Proof

/-- REG_BASE, the raw encoding of register 0 (R7). -/
abbrev regBase : Nat := 32768

/-- The class of a raw operand word (R57): 0..32767 literal, 32768..32775 register, anything else invalid. -/
def classify (w : Raw) : Operand :=
  if w.toNat < regBase then .literal (w.setWidth 15)
  else if w.toNat < regBase + 8 then .register (Fin.ofNat 8 (w.toNat - regBase))
  else .invalid w

/-- The raw word of an operand (R57, R69): a literal is itself, register `i` is 32768 + i. -/
def encodeOperand : Operand → Raw
  | .literal v  => v.setWidth 16
  | .register i => BitVec.ofNat 16 (regBase + i.val)
  | .invalid w  => w

/-- The arity table (R62): how many operand words an opcode takes; `none` outside 0..21. -/
def arity (op : Raw) : Option Nat :=
  match op.toNat with
  | 0  => some 0
  | 1  => some 2
  | 2  => some 1
  | 3  => some 1
  | 4  => some 3
  | 5  => some 3
  | 6  => some 1
  | 7  => some 2
  | 8  => some 2
  | 9  => some 3
  | 10 => some 3
  | 11 => some 3
  | 12 => some 3
  | 13 => some 3
  | 14 => some 2
  | 15 => some 2
  | 16 => some 2
  | 17 => some 1
  | 18 => some 0
  | 19 => some 1
  | 20 => some 1
  | 21 => some 0
  | _  => none

/-- Why a list of words holds no instruction at its start. -/
inductive DecodeError where
  /-- The list is empty. -/
  | noWord
  /-- The first word is no opcode: it lies outside 0..21 (R66). -/
  | unknownOpcode (w : Raw)
  /-- The list ends before the instruction's operand words do. -/
  | missingOperand
  deriving DecidableEq, Repr

/-- What the decoder answers: an instruction with the words that follow it, or why there is none. -/
abbrev Decoded := Except DecodeError (Instr × List Raw)

/-- Reads the operand word of a one-operand format, F1S or F1D (R56). -/
def takeOne (mk : Operand → Instr) : List Raw → Decoded
  | a :: rest => .ok (mk (classify a), rest)
  | []        => .error .missingOperand

/-- Reads the operand words of a two-operand format, F2DS or F2SS (R56). -/
def takeTwo (mk : Operand → Operand → Instr) : List Raw → Decoded
  | a :: b :: rest => .ok (mk (classify a) (classify b), rest)
  | [_]            => .error .missingOperand
  | []             => .error .missingOperand

/-- Reads the operand words of the three-operand format, F3DSS (R56). -/
def takeThree (mk : Operand → Operand → Operand → Instr) : List Raw → Decoded
  | a :: b :: c :: rest => .ok (mk (classify a) (classify b) (classify c), rest)
  | [_, _]              => .error .missingOperand
  | [_]                 => .error .missingOperand
  | []                  => .error .missingOperand

/-- The instruction at the head of a list of words (R55, R64). The opcode word is compared whole and never resolved (R65). -/
def decode : List Raw → Decoded
  | [] => .error .noWord
  | op :: ws =>
    match op.toNat with
    | 0  => .ok (.halt, ws)
    | 1  => takeTwo .set ws
    | 2  => takeOne .push ws
    | 3  => takeOne .pop ws
    | 4  => takeThree .eq ws
    | 5  => takeThree .gt ws
    | 6  => takeOne .jmp ws
    | 7  => takeTwo .jt ws
    | 8  => takeTwo .jf ws
    | 9  => takeThree .add ws
    | 10 => takeThree .mult ws
    | 11 => takeThree .mod ws
    | 12 => takeThree .and ws
    | 13 => takeThree .or ws
    | 14 => takeTwo .not ws
    | 15 => takeTwo .rmem ws
    | 16 => takeTwo .wmem ws
    | 17 => takeOne .call ws
    | 18 => .ok (.ret, ws)
    | 19 => takeOne .out ws
    | 20 => takeOne .inp ws
    | 21 => .ok (.noop, ws)
    | _  => .error (.unknownOpcode op)

/-- The opcode number of an instruction (R64). -/
def Instr.opcode : Instr → Raw
  | .halt       => 0
  | .set _ _    => 1
  | .push _     => 2
  | .pop _      => 3
  | .eq _ _ _   => 4
  | .gt _ _ _   => 5
  | .jmp _      => 6
  | .jt _ _     => 7
  | .jf _ _     => 8
  | .add _ _ _  => 9
  | .mult _ _ _ => 10
  | .mod _ _ _  => 11
  | .and _ _ _  => 12
  | .or _ _ _   => 13
  | .not _ _    => 14
  | .rmem _ _   => 15
  | .wmem _ _   => 16
  | .call _     => 17
  | .ret        => 18
  | .out _      => 19
  | .inp _      => 20
  | .noop       => 21

/-- The words of an instruction: its opcode word, then its operand words in order (R55, R69). -/
def encode (i : Instr) : List Raw := i.opcode :: i.operands.map encodeOperand

/-- The first `n` words of the number `w`, whose bit 0 is the least significant bit of the first word. -/
def wordsOfNat : (n : Nat) → (w : Nat) → List Raw
  | 0,     _ => []
  | n + 1, w => BitVec.ofNat 16 w :: wordsOfNat n (w / 65536)

/-- The four words that the low `nbits` bits of `w` stand for, every bit above them zero; four is the longest instruction (R63). -/
def tableWords (nbits w : Nat) : List Raw := wordsOfNat 4 (w % 2 ^ nbits)

/-- The instruction the decoder reads from an instruction's bits as the opcode table numbers them. -/
def decodeTableWord (nbits w : Nat) : Option Instr :=
  match decode (tableWords nbits w) with
  | .ok (i, _) => some i
  | .error _   => none

end Sys2Proof
end

