-- ==== Sys2Proof/Machine/Ops.lean ====
section
/-! DEFINITION. The named operations on memory, registers, stack, pc, channels and status: the primitives of R10. -/

namespace Sys2Proof.Machine

/-! ### Memory -/

/-- The byte at a byte address of the image order. -/
def Memory.readByte : Memory → Nat → Byte
  | [],         _ => Memory.unlisted
  | (k, b) :: m, a => if a = k then b else Memory.readByte m a

/-- Sets one byte and keeps the canonical form. -/
def Memory.writeByte : Memory → Nat → Byte → Memory
  | [],          a, v => if v = Memory.unlisted then [] else [(a, v)]
  | (k, b) :: m, a, v =>
    if a < k then (if v = Memory.unlisted then (k, b) :: m else (a, v) :: (k, b) :: m)
    else if a = k then (if v = Memory.unlisted then m else (a, v) :: m)
    else (k, b) :: Memory.writeByte m a v

/-- Cell `k`, low byte first in memory (R45). -/
def Memory.readCell (m : Memory) (k : Nat) : Raw := m.readByte (2 * k + 1) ++ m.readByte (2 * k)

/-- Sets cell `k` (R45). -/
def Memory.writeCell (m : Memory) (k : Nat) (v : Raw) : Memory :=
  (m.writeByte (2 * k) (v.extractLsb' 0 8)).writeByte (2 * k + 1) (v.extractLsb' 8 8)

/-- The memory that lists an image's bytes from byte address `base` on (R139 step 3). -/
def Memory.ofBytes : (base : Nat) → List Byte → Memory
  | _,    []      => []
  | base, b :: bs =>
    if b = Memory.unlisted then Memory.ofBytes (base + 1) bs else (base, b) :: Memory.ofBytes (base + 1) bs

/-- `MemRead(addr, 1)` (R42): `none` where the address does not exist, which the caller raises as `OutOfBounds`. -/
def State.memRead (s : State) (addr : Nat) : Option Raw :=
  if addr < s.cfg.memWords then some (s.mem.readCell addr) else none

/-- The `n` cells from `addr` on, `none` if one of them does not exist (R75). -/
def State.memReadMany (s : State) : (addr n : Nat) → Option (List Raw)
  | _,    0     => some []
  | addr, n + 1 =>
    match s.memRead addr, s.memReadMany (addr + 1) n with
    | some w, some ws => some (w :: ws)
    | _, _ => none

/-- The COMMIT part of `MemWrite(addr, 1, v)` (R43); the caller has checked the address. -/
def State.memWrite (s : State) (addr : Nat) (v : Raw) : State := { s with mem := s.mem.writeCell addr v }

/-! ### Registers -/

/-- `x[i]` (R21). -/
def State.readReg (s : State) (i : RegIdx) : Word := s.regs[i]

/-- `x[i] <- v`: stores `v[14:0]` (R22). -/
def State.writeReg (s : State) (i : RegIdx) (v : Raw) : State := { s with regs := s.regs.set i (v.setWidth 15) }

/-- `zext_16` of a 15-bit value (R9). -/
def zext (v : Word) : Raw := v.setWidth 16

/-! ### Stack -/

/-- The stack's depth equals a finite STACK_CAP (R26). -/
def State.stackFull (s : State) : Bool := s.cfg.stackCap == some s.stack.length

/-- The COMMIT part of `Push(v)` (R26); the caller has checked `stackFull`. -/
def State.pushEntry (s : State) (v : Raw) : State := { s with stack := v :: s.stack }

/-- The entry `Pop()` returns, `none` if the stack is empty (R27). -/
def State.top (s : State) : Option Raw := s.stack.head?

/-- The COMMIT part of `Pop()`: the top entry removed (R27). -/
def State.dropTop (s : State) : State := { s with stack := s.stack.tail }

/-! ### Instruction pointer -/

/-- `pc <- target` (R78 case 2). -/
def State.jumpTo (s : State) (target : Raw) : State := { s with pc := target }

/-- The address of the instruction after one at `pc` with `n` operand words: `pc + 1 + n` (R78 case 3, R96). -/
def State.nextIp (s : State) (n : Nat) : Raw := s.pc + BitVec.ofNat 16 (1 + n)

/-- The fall-through of an instruction with `n` operand words (R78 case 3; log 13). -/
def State.fallThrough (s : State) (n : Nat) : State := { s with pc := s.nextIp n }

/-! ### Channels -/

/-- `Emit(b)` (R111). -/
def State.emit (s : State) (b : Byte) : State := { s with output := s.output ++ [b] }

/-- The answer `Receive()` gets (R112): the next ready byte; with none ready, end-of-input once the host has closed the
source and `NotYet` before that. -/
def State.receive (s : State) : InAnswer :=
  match s.input with
  | c :: _ => .byte c
  | []     => if s.inputClosed then .endOfInput else .notYet

/-- A `Byte` answer consumes the byte (R112). -/
def State.consume (s : State) : State := { s with input := s.input.tail }

/-! ### Status -/

/-- `raise K(ip)` (R127): the status records the kind and the pc the step started with, and nothing else changes. The
block has no handler, vector or saved-state register, and no return from a fault (R127, R129), so no operation returns. -/
def State.raise (s : State) (k : FaultKind) : State := { s with status := .faulted k s.pc }

/-- `status <- Halted`; pc stays (R78 case 1, R84). -/
def State.halt (s : State) : State := { s with status := .halted }

end Sys2Proof.Machine
end

