-- ==== Sys2Proof/Machine/Operands.lean ====
section
/-! DEFINITION. The operand resolver (R58, R59) and the shapes in which instructions use it (R76). -/

namespace Sys2Proof.Machine

/-- `ResolveSrc` (R58): a literal is its value, a register reference is the register's value, anything else fails. -/
def resolveSrc (s : State) : Operand → Option Word
  | .literal v  => some v
  | .register i => some (s.readReg i)
  | .invalid _  => none

/-- `ResolveDst` (R59): only a register reference is a destination; a literal fails too. -/
def resolveDst : Operand → Option RegIdx
  | .literal _  => none
  | .register i => some i
  | .invalid _  => none

/-- Resolves a source operand and goes on with its value, or raises `InvalidOperand` (R76). -/
def withSource (a : Operand) (s : State) (k : Word → Result) : Result :=
  match resolveSrc s a with
  | some v => k v
  | none   => .next (s.raise .invalidOperand)

/-- Resolves a destination operand and goes on with its register, or raises `InvalidOperand` (R76). -/
def withDest (a : Operand) (s : State) (k : RegIdx → Result) : Result :=
  match resolveDst a with
  | some i => k i
  | none   => .next (s.raise .invalidOperand)

/-- COMMIT of an instruction with `n` operand words that writes `v` to register `i` and falls through. -/
def commitReg (s : State) (i : RegIdx) (v : Raw) (n : Nat) : Result := .next ((s.writeReg i v).fallThrough n)

/-- An instruction of format F3DSS: `x[a] <- f b c` (R56). -/
def binaryOp (f : Word → Word → Word) (a b c : Operand) (s : State) : Result :=
  withDest a s fun i => withSource b s fun vb => withSource c s fun vc => commitReg s i (zext (f vb vc)) 3

/-- An instruction of format F2DS without a check of its own: `x[a] <- f b` (R56). -/
def unaryOp (f : Word → Word) (a b : Operand) (s : State) : Result :=
  withDest a s fun i => withSource b s fun vb => commitReg s i (zext (f vb)) 2

end Sys2Proof.Machine
end

