-- ==== Sys2Proof/Machine/ArithLogic.lean ====
section
/-! DEFINITION. Arithmetic and logic: add, mult, mod, and, or, not (45_arith_logic.md). -/

namespace Sys2Proof.Machine

/-- `add a b c` (R102). -/
def execAdd (a b c : Operand) (s : State) : Result := binaryOp aluAdd a b c s

/-- `mult a b c` (R103). -/
def execMult (a b c : Operand) (s : State) : Result := binaryOp aluMult a b c s

/-- `mod a b c` (R104): a divisor of 0 raises `DivideByZero` once all three operands have resolved. -/
def execMod (a b c : Operand) (s : State) : Result :=
  withDest a s fun i => withSource b s fun vb => withSource c s fun vc =>
    if vc.toNat = 0 then .next (s.raise .divideByZero) else commitReg s i (zext (aluMod vb vc)) 3

/-- `and a b c` (R105). -/
def execAnd (a b c : Operand) (s : State) : Result := binaryOp aluAnd a b c s

/-- `or a b c` (R106). -/
def execOr (a b c : Operand) (s : State) : Result := binaryOp aluOr a b c s

/-- `not a b` (R107). -/
def execNot (a b : Operand) (s : State) : Result := unaryOp aluNot a b s

end Sys2Proof.Machine
end

