-- ==== Sys2Proof/Machine/Flags.lean ====
section
/-! DEFINITION. The block has no flags (R34). What other machines do with flags is done here: comparators that
answer 0 or 1 as a value (R89) and the condition a branch tests in an operand's value (R94, R95). -/

namespace Sys2Proof.Machine

/-- A truth value as the comparators give it: exactly 0 or 1 (R89). -/
def ofTruth (p : Bool) : Word := if p then 1 else 0

/-- The comparator of `eq` (R90). -/
def cmpEq (b c : Word) : Word := ofTruth (decide (b.toNat = c.toNat))

/-- The comparator of `gt`: unsigned and strict (R91). -/
def cmpGt (b c : Word) : Word := ofTruth (decide (b.toNat > c.toNat))

/-- The condition `jt` and `jf` test: any value but 0 is true (R94). -/
def isTrue (c : Word) : Bool := decide (c.toNat ≠ 0)

end Sys2Proof.Machine
end

