-- ==== Sys2Proof/Machine/Compare.lean ====
section
/-! DEFINITION. Comparisons: eq, gt (43_compare.md). -/

namespace Sys2Proof.Machine

/-- `eq a b c` (R90). -/
def execEq (a b c : Operand) (s : State) : Result := binaryOp cmpEq a b c s

/-- `gt a b c` (R91). -/
def execGt (a b c : Operand) (s : State) : Result := binaryOp cmpGt a b c s

end Sys2Proof.Machine
end

