-- ==== Sys2Proof/Machine/ControlTransfer.lean ====
section
/-! DEFINITION. Control transfer: jmp, jt, jf, call, ret (44_control_transfer.md). A target is not checked here: the next
fetch finds one that is out of range (R80). -/

namespace Sys2Proof.Machine

/-- `jmp a` (R93). -/
def execJmp (a : Operand) (s : State) : Result := withSource a s fun t => .next (s.jumpTo (zext t))

/-- `jt a b` (R94): both operands are resolved, taken or not (D5). -/
def execJt (a b : Operand) (s : State) : Result :=
  withSource a s fun c => withSource b s fun t =>
    if isTrue c then .next (s.jumpTo (zext t)) else .next (s.fallThrough 2)

/-- `jf a b` (R95): both operands are resolved, taken or not (D5). -/
def execJf (a b : Operand) (s : State) : Result :=
  withSource a s fun c => withSource b s fun t =>
    if isTrue c then .next (s.fallThrough 2) else .next (s.jumpTo (zext t))

/-- `call a` (R96): pushes the address of the instruction after it, unmasked, then jumps. -/
def execCall (a : Operand) (s : State) : Result :=
  withSource a s fun t =>
    if s.stackFull then .next (s.raise .stackOverflow) else .next ((s.pushEntry (s.nextIp 1)).jumpTo (zext t))

/-- `ret` (R97). -/
def execRet (s : State) : Result :=
  match s.top with
  | none   => .next (s.raise .stackUnderflow)
  | some e => .next (s.dropTop.jumpTo e)

end Sys2Proof.Machine
end

