-- ==== Sys2Proof/Machine/InputOutput.lean ====
section
/-! DEFINITION. Input and output: out, in (47_io.md). -/

namespace Sys2Proof.Machine

/-- `out a` (R115): emits the low 8 bits. -/
def execOut (a : Operand) (s : State) : Result :=
  withSource a s fun v => .next ((s.emit (v.extractLsb' 0 8)).fallThrough 1)

/-- `in a` (R116): the destination is checked before the request. A `NotYet` answer is the wait of R114: the state stays as it
is, and the next step retries (log 6). -/
def execInp (a : Operand) (s : State) : Result :=
  withDest a s fun i =>
    match s.receive with
    | .notYet     => .next s
    | .endOfInput => .next (s.raise .inputExhausted)
    | .byte c     => commitReg s.consume i (c.setWidth 16) 1

end Sys2Proof.Machine
end

