-- ==== Sys2Proof/Machine/MachineControl.lean ====
section
/-! DEFINITION. Machine control: halt, noop (41_machine_control.md). -/

namespace Sys2Proof.Machine

/-- `halt` (R84). -/
def execHalt (s : State) : Result := .next s.halt

/-- `noop` (R85). -/
def execNoop (s : State) : Result := .next (s.fallThrough 0)

end Sys2Proof.Machine
end

