-- ==== Sys2Proof/Machine/MemoryAccess.lean ====
section
/-! DEFINITION. Memory access: rmem, wmem (46_memory_access.md). The address is the resolved source operand itself (R108). -/

namespace Sys2Proof.Machine

/-- `rmem a b` (R109): the register write keeps the cell's bits [14:0] (D9). -/
def execRmem (a b : Operand) (s : State) : Result :=
  withDest a s fun i => withSource b s fun addr =>
    match s.memRead addr.toNat with
    | none   => .next (s.raise .outOfBounds)
    | some m => commitReg s i m 2

/-- `wmem a b` (R110). -/
def execWmem (a b : Operand) (s : State) : Result :=
  withSource a s fun addr => withSource b s fun v =>
    if addr.toNat < s.cfg.memWords then .next ((s.memWrite addr.toNat (zext v)).fallThrough 2)
    else .next (s.raise .outOfBounds)

end Sys2Proof.Machine
end

