-- ==== Sys2Proof/Machine/RegisterStack.lean ====
section
/-! DEFINITION. Register and stack moves: set, push, pop (42_register_stack.md). -/

namespace Sys2Proof.Machine

/-- `set a b` (R86). -/
def execSet (a b : Operand) (s : State) : Result := unaryOp id a b s

/-- `push a` (R87). -/
def execPush (a : Operand) (s : State) : Result :=
  withSource a s fun v =>
    if s.stackFull then .next (s.raise .stackOverflow) else .next ((s.pushEntry (zext v)).fallThrough 1)

/-- `pop a` (R88): the destination is checked before the stack, and the register write keeps the entry's bits [14:0]. -/
def execPop (a : Operand) (s : State) : Result :=
  withDest a s fun i =>
    match s.top with
    | none   => .next (s.raise .stackUnderflow)
    | some e => commitReg s.dropTop i e 1

end Sys2Proof.Machine
end

