-- ==== Sys2Proof/Machine/Fetch.lean ====
section
/-! DEFINITION. Phases (1) to (3) of the step: opcode fetch, decode, operand-word fetch (R72 to R75). -/

namespace Sys2Proof.Machine

/-- The fault a decoding error stands for: words that are not there are out of bounds (R118), a word outside 0..21 is no opcode (R119). -/
def faultOf : DecodeError → FaultKind
  | .noWord          => .outOfBounds
  | .unknownOpcode _ => .unknownOpcode
  | .missingOperand  => .outOfBounds

/-- The instruction at pc, or the kind of the fetch fault, in the order of R72 and R126: the opcode word must exist, then
be an opcode, then every operand word must exist. -/
def fetch (s : State) : Except FaultKind Instr :=
  match s.memRead s.pc.toNat with
  | none => .error .outOfBounds
  | some op =>
    match arity op with
    | none => .error .unknownOpcode
    | some n =>
      match s.memReadMany (s.pc.toNat + 1) n with
      | none => .error .outOfBounds
      | some ws =>
        match decode (op :: ws) with
        | .ok (i, _) => .ok i
        | .error e   => .error (faultOf e)

end Sys2Proof.Machine
end

