-- ==== Sys2Proof/Machine/Step.lean ====
section
/-! DEFINITION. The step (R72) and the placing of one instruction where the step fetches. -/

namespace Sys2Proof.Machine

/-- One step. It is defined only while Running; in a terminal state the block takes none, and the answer repeats the
terminal status (R71; log 4). A fetch fault is taken as the status change of R127, an instruction is run by `exec`. -/
def step (s : State) : Host.Outcome State Fault Refusal :=
  match s.status with
  | .halted => .fault .runHalted
  | .faulted k ip => .fault (.runFaulted k ip)
  | .running =>
    match fetch s with
    | .error k => .next (s.raise k)
    | .ok i    => exec i s

/-- Writes words to successive cells. -/
def Memory.writeCells (m : Memory) (k : Nat) : List Raw → Memory
  | []      => m
  | w :: ws => Memory.writeCells (m.writeCell k w) (k + 1) ws

/-- `s` with the four words of a table word (R63) in the cells at pc, memory long enough to hold them, and Running, so
that the next step runs that instruction. It stands for a launch with that instruction at pc (log 15). -/
def State.withFetchWord (s : State) (nbits w : Nat) : State :=
  { s with
    cfg := { s.cfg with memWords := max s.cfg.memWords (s.pc.toNat + 4) }
    mem := Memory.writeCells s.mem s.pc.toNat (tableWords nbits w)
    status := .running }

end Sys2Proof.Machine
end

