-- ==== Sys2Proof/Machine/Launch.lean ====
section
/-! DEFINITION. What the host does: launching a run from an image (R139), and its moves on the IN channel (R112, R113, R138).
Between steps only; it writes nothing else of the state during a run (R37). -/

namespace Sys2Proof.Machine

/-- Why no run exists (R139). -/
inductive LaunchError where
  /-- The image has an odd number of bytes (R125). -/
  | unalignedProgram
  /-- The image has more than 32768 words (R41, D2). -/
  | imageTooLarge
  deriving DecidableEq, Repr

/-- A register's value at launch: 0, or its preload masked to 15 bits (R24, R139 step 4; log 12). -/
def preloaded : Option Nat → Word
  | none   => 0
  | some v => BitVec.ofNat 15 v

/-- A launch (R139): the image's bytes become the cells, little-endian, and everything else is as R38 says. -/
def launch (image : List Byte) (preload : Vector (Option Nat) 8) (stackCap : Option Nat) : Except LaunchError State :=
  if image.length % 2 = 1 then .error .unalignedProgram
  else if Config.maxMemWords < image.length / 2 then .error .imageTooLarge
  else .ok {
    cfg := { memWords := image.length / 2, stackCap := stackCap }
    pc := 0
    regs := #v[preloaded preload[0], preloaded preload[1], preloaded preload[2], preloaded preload[3],
               preloaded preload[4], preloaded preload[5], preloaded preload[6], preloaded preload[7]]
    stack := []
    mem := Memory.ofBytes 0 image
    status := .running
    output := []
    input := []
    inputClosed := false }

/-- The host has more bytes ready on the IN channel; a closed source gives none ever again (R112; log 5). -/
def State.hostSend (s : State) (bytes : List Byte) : State :=
  if s.inputClosed then s else { s with input := s.input ++ bytes }

/-- The host delivers one line with its terminator, the host parameter LINE_TERMINATOR (R113, D14; log 10). -/
def State.hostLine (s : State) (lineTerminator line : List Byte) : State := s.hostSend (line ++ lineTerminator)

/-- The host closes the source: the bytes still ready stay (R112). -/
def State.hostClose (s : State) : State := { s with inputClosed := true }

end Sys2Proof.Machine
end

