-- ==== Sys2Proof/Safety.lean ====
section
/-! DEFINITION. The invariant of every run and the words claims use for how a run stands. -/

namespace Sys2Proof.Machine

/-- What the spec says of every state a run reaches. -/
structure State.Inv (s : State) : Prop where
  /-- MEM_WORDS is at most 32768 (R8, R41). -/
  memWords_le : s.cfg.memWords ≤ 32768
  /-- Memory is in its canonical form. -/
  mem_wf : s.mem.wf
  /-- Only bytes of cells that exist are listed (R48). -/
  mem_inside : ∀ c ∈ s.mem, c.1 < 2 * s.cfg.memWords
  /-- pc lies in [0, 32768] (R17). -/
  pc_le : s.pc.toNat ≤ 32768
  /-- Every stack entry lies in [0, 32768] (R29). -/
  stack_le : ∀ e ∈ s.stack, e.toNat ≤ 32768
  /-- The depth is at most STACK_CAP (R25). -/
  depth_le : ∀ n, s.cfg.stackCap = some n → s.stack.length ≤ n
  /-- A recorded fault names the pc, which it has not moved (R127). -/
  fault_ip : ∀ k ip, s.status = .faulted k ip → ip = s.pc

/-- The block waits in `in` for the host: it is Running, its instruction is an `in` with a register operand, and the IN
channel has neither a byte nor an end (R114, R137). -/
def State.Waiting (s : State) : Prop :=
  s.status = .running ∧ (∃ i : RegIdx, fetch s = .ok (.inp (.register i))) ∧ s.receive = .notYet

/-- A safe state: no fault is recorded. -/
def State.Safe (s : State) : Prop := ∀ k ip, s.status ≠ .faulted k ip

end Sys2Proof.Machine
end

