-- ==== Sys2Proof/Certificates/Slice0/Obligations.lean ====
section
/-! DEFINITION. The statements for the provers. Each docstring names the rules it formalises. "s answers t" below is
`exec i s = .next t` or `step s = .next t`. A fault is taken as a next state whose status records it (R127; log 4). -/

open Sys2Proof Sys2Proof.Machine

/-! ### Encoding and decoding -/

/-- No bit of an encoding is dropped: decoding the words of a well-formed instruction gives it back, whatever words follow
(R55, R57, R64). -/
def Obligations.DecodeOfEncodeIsTheInstruction : Prop :=
  ∀ (i : Instr) (rest : List Raw), i.wellFormed = true → decode (encode i ++ rest) = .ok (i, rest)

/-- The other direction: what the decoder reads is well formed, and its encoding is the words it was read from (R55, R57, R64). -/
def Obligations.EncodeOfDecodeIsTheWords : Prop :=
  ∀ (ws rest : List Raw) (i : Instr), decode ws = .ok (i, rest) → i.wellFormed = true ∧ encode i ++ rest = ws

/-- The arity table is the length of what the decoder reads (R62, R63): an opcode has an arity exactly when it lies in 0..21,
and with at least that many words after it the decoder takes just that many. -/
def Obligations.DecoderTakesArityManyWords : Prop :=
  ∀ (op : Raw) (ws : List Raw),
    (arity op = none ↔ 21 < op.toNat) ∧
    ∀ n, arity op = some n →
      (n ≤ ws.length → ∃ i, decode (op :: ws) = .ok (i, ws.drop n) ∧ i.operands = (ws.take n).map classify) ∧
      (ws.length < n → decode (op :: ws) = .error .missingOperand)

/-- The three classes of a raw operand word (R57): up to 32767 a literal of that value, 32768..32775 register w - 32768, and
any other word invalid. -/
def Obligations.OperandWordClasses : Prop :=
  ∀ w : Raw,
    (w.toNat ≤ 32767 → ∃ v : Word, classify w = .literal v ∧ v.toNat = w.toNat) ∧
    (32768 ≤ w.toNat → w.toNat ≤ 32775 → ∃ i : RegIdx, classify w = .register i ∧ i.val = w.toNat - 32768) ∧
    (32776 ≤ w.toNat → classify w = .invalid w)

/-- Every word above 21 is no opcode, a register reference included: the decoder refuses it and a step that fetches it faults
`UnknownOpcode`, whatever follows it (R65, R66, R119). -/
def Obligations.WordsAbove21AreUnknownOpcodes : Prop :=
  ∀ (op : Raw), 21 < op.toNat →
    (∀ ws, decode (op :: ws) = .error (.unknownOpcode op)) ∧
    ∀ s : State, s.status = .running → s.memRead s.pc.toNat = some op →
      step s = .next { s with status := .faulted .unknownOpcode s.pc }

/-- Words written out from the opcode table and the operand classes decode to the instructions they stand for, with any words
after them (R57, R64). -/
def Obligations.KnownWordsDecodeAsTheTableSays : Prop :=
  ∀ rest : List Raw,
    decode (0 :: rest) = .ok (.halt, rest) ∧
    decode (1 :: 32771 :: 1234 :: rest) = .ok (.set (.register 3) (.literal 1234), rest) ∧
    decode (3 :: 5 :: rest) = .ok (.pop (.literal 5), rest) ∧
    decode (5 :: 32770 :: 3 :: 2 :: rest) = .ok (.gt (.register 2) (.literal 3) (.literal 2), rest) ∧
    decode (7 :: 32768 :: 40000 :: rest) = .ok (.jt (.register 0) (.invalid 40000), rest) ∧
    decode (9 :: 32768 :: 32769 :: 4 :: rest) = .ok (.add (.register 0) (.register 1) (.literal 4), rest) ∧
    decode (16 :: 7 :: 33 :: rest) = .ok (.wmem (.literal 7) (.literal 33), rest) ∧
    decode (20 :: 32775 :: rest) = .ok (.inp (.register 7), rest)

/-! ### Operand resolution and the primitives -/

/-- `ResolveSrc` (R58): a word up to 32767 is itself, 32768..32775 is the register's value, and any other word fails, so that
the instruction raises `InvalidOperand`, whatever it would do next. -/
def Obligations.SourceOperandsResolve : Prop :=
  ∀ (s : State) (w : Raw),
    (w.toNat ≤ 32767 → ∃ v : Word, resolveSrc s (classify w) = some v ∧ v.toNat = w.toNat) ∧
    (∀ i : RegIdx, w.toNat = 32768 + i.val → resolveSrc s (classify w) = some s.regs[i]) ∧
    (32776 ≤ w.toNat → resolveSrc s (classify w) = none ∧
      ∀ k, withSource (classify w) s k = .next { s with status := .faulted .invalidOperand s.pc })

/-- `ResolveDst` (R59): only 32768..32775 is a destination, and it gives the register's index; a literal or any other word
fails, so that the instruction raises `InvalidOperand`, whatever it would do next. -/
def Obligations.DestinationOperandsResolve : Prop :=
  ∀ w : Raw,
    (∀ i : RegIdx, w.toNat = 32768 + i.val → resolveDst (classify w) = some i) ∧
    (w.toNat ≤ 32767 ∨ 32776 ≤ w.toNat → resolveDst (classify w) = none ∧
      ∀ s k, withDest (classify w) s k = .next { s with status := .faulted .invalidOperand s.pc })

/-- `x[i] <- v` stores `v[14:0]` in register i, and no other register changes (R21, R22). -/
def Obligations.RegisterWriteKeepsLow15Bits : Prop :=
  ∀ (s : State) (i : RegIdx) (v : Raw),
    ((s.writeReg i v).readReg i).toNat = v.toNat % 32768 ∧
    ∀ j : RegIdx, j ≠ i → (s.writeReg i v).readReg j = s.readReg j

/-- `MemRead` and `MemWrite` (R42, R43): a read at or past MEM_WORDS gives nothing; after a write to a cell that exists,
that cell reads as the value and every other cell as before. -/
def Obligations.MemoryReadsLastWrite : Prop :=
  ∀ (s : State) (a b : Nat) (v : Raw), s.mem.wf →
    (s.memRead b = none ↔ s.cfg.memWords ≤ b) ∧
    (a < s.cfg.memWords → (s.memWrite a v).memRead a = some v) ∧
    (b ≠ a → (s.memWrite a v).memRead b = s.memRead b)

/-! ### Launch and reset -/

/-- A launch (R139, R38): an odd image fails, one of more than 32768 words is refused, and any other gives the state R38 lists,
its cells the image's words with the low byte first. -/
def Obligations.LaunchBuildsTheListedState : Prop :=
  ∀ (image : List Byte) (preload : Vector (Option Nat) 8) (cap : Option Nat),
    (image.length % 2 = 1 → launch image preload cap = .error .unalignedProgram) ∧
    (image.length % 2 = 0 → 65536 < image.length → launch image preload cap = .error .imageTooLarge) ∧
    (image.length % 2 = 0 → image.length ≤ 65536 → ∃ s, launch image preload cap = .ok s ∧
      s.cfg.memWords = image.length / 2 ∧ s.cfg.stackCap = cap ∧ s.pc = 0 ∧ s.stack = [] ∧ s.status = .running ∧
      s.output = [] ∧ s.input = [] ∧
      (∀ i : RegIdx, s.regs[i].toNat = (preload[i].getD 0) % 32768) ∧
      ∀ (k : Nat) (lo hi : Byte), image[2 * k]? = some lo → image[2 * k + 1]? = some hi →
        ∃ w, s.memRead k = some w ∧ w.toNat = lo.toNat + 256 * hi.toNat)

/-- The launch of an image of 0 bytes is legal, has no memory, and its first step faults `OutOfBounds(0)` (R143). -/
def Obligations.EmptyImageFaultsAtOnce : Prop :=
  ∀ (preload : Vector (Option Nat) 8) (cap : Option Nat), ∃ s, launch [] preload cap = .ok s ∧ s.cfg.memWords = 0 ∧
    step s = .next { s with status := .faulted .outOfBounds 0 }

/-- Reset is the launch of the empty image with no preload and an unbounded stack (the model's choice of image and
STACK_CAP: logs 2 and 3), so pc is 0, every register is 0, the stack is empty and the block is Running (R38). With a
table word placed where reset fetches (`State.withFetchWord`, the model's own: log 15), the first step runs exactly the
instruction the decoder reads from that word, and faults `UnknownOpcode` at 0 where it reads none. -/
def Obligations.ResetIsTheEmptyLaunch : Prop :=
  launch [] (Vector.replicate 8 none) none = .ok State.reset ∧
  State.reset.pc = 0 ∧ (∀ i : RegIdx, State.reset.readReg i = 0) ∧ State.reset.stack = [] ∧ State.reset.status = .running ∧
  ∀ nbits w : Nat,
    (∀ i, decodeTableWord nbits w = some i →
      step (State.reset.withFetchWord nbits w) = exec i (State.reset.withFetchWord nbits w)) ∧
    (decodeTableWord nbits w = none → step (State.reset.withFetchWord nbits w) =
      .next { State.reset.withFetchWord nbits w with status := .faulted .unknownOpcode 0 })

/-- The invariant holds of every launched state: at most 32768 cells, memory in canonical form, pc and every stack entry in
[0, 32768], the depth within STACK_CAP (R17, R25, R29, R41). -/
def Obligations.InvariantAfterLaunch : Prop :=
  ∀ (image : List Byte) (preload : Vector (Option Nat) 8) (cap : Option Nat) (s : State),
    launch image preload cap = .ok s → s.Inv

/-- The invariant of StepKeepsTheInvariant holds at reset (whose image is the model's choice: log 2). -/
def Obligations.InvariantAtReset : Prop := State.reset.Inv

/-- Every step keeps the invariant: memory keeps its canonical form, within at most 32768 cells, pc and every stack entry stay in
[0, 32768], the depth stays within STACK_CAP, and a recorded fault names the pc (R17, R25, R29, R41, R127). -/
def Obligations.StepKeepsTheInvariant : Prop :=
  ∀ s t : State, s.Inv → step s = .next t → t.Inv

/-- The host's moves on the IN channel change nothing but that channel (R37, R112): bytes sent come after those already
ready, a line is its bytes and then the terminator, a closed source gives nothing more, and closing keeps the ready bytes. -/
def Obligations.HostMovesChangeOnlyTheInputChannel : Prop :=
  ∀ (s : State) (bytes line lineTerminator : List Byte),
    s.hostSend bytes = { s with input := (s.hostSend bytes).input } ∧
    (s.inputClosed = false → (s.hostSend bytes).input = s.input ++ bytes) ∧
    (s.inputClosed = true → s.hostSend bytes = s) ∧
    s.hostLine lineTerminator line = s.hostSend (line ++ lineTerminator) ∧
    s.hostClose = { s with inputClosed := true }

/-! ### The step -/

/-- A step runs the decoded instruction (R72): in a Running state whose cells at pc hold words that decode to `i` with none
left over, the step is `exec i`. Nothing is added around it: each meaning moves pc itself. -/
def Obligations.StepRunsTheDecodedInstruction : Prop :=
  ∀ (s : State) (ws : List Raw) (i : Instr), s.status = .running →
    (∀ (k : Nat) (w : Raw), ws[k]? = some w → s.memRead (s.pc.toNat + k) = some w) →
    decode ws = .ok (i, []) → step s = exec i s

/-- The fetch faults in their order (R75, R119, and the fault of R73): an opcode word that does not exist is `OutOfBounds`; one above 21 is
`UnknownOpcode`, operand words or not; an operand word that does not exist is `OutOfBounds`, before any operand is
resolved. Each records the pc, and changes nothing else. -/
def Obligations.FetchFaultsInOrder : Prop :=
  ∀ s : State, s.status = .running →
    (s.cfg.memWords ≤ s.pc.toNat → step s = .next { s with status := .faulted .outOfBounds s.pc }) ∧
    ∀ op, s.memRead s.pc.toNat = some op →
      (21 < op.toNat → step s = .next { s with status := .faulted .unknownOpcode s.pc }) ∧
      ∀ n k, arity op = some n → 1 ≤ k → k ≤ n → s.cfg.memWords ≤ s.pc.toNat + k →
        step s = .next { s with status := .faulted .outOfBounds s.pc }

/-- A step is taken only while Running, and a Halted or Faulted block has no outgoing step (R32, R71); what the step answers
there repeats the terminal status (the model's form: log 4). -/
def Obligations.TerminalStatesTakeNoStep : Prop :=
  (∀ s t : State, step s = .next t → s.status = .running) ∧
  (∀ s : State, s.status = .halted → step s = .fault .runHalted) ∧
  ∀ (s : State) (k : FaultKind) (ip : Raw), s.status = .faulted k ip → step s = .fault (.runFaulted k ip)

/-- Every Running state has a step, as R83's total function has an outcome for each: no instruction is refused and none stops
the machine. That `halt`, a fault and a waiting `in`, outcomes of their own in R83, answer a next state too is the model's
choice (logs 4 and 6). -/
def Obligations.EveryRunningStateHasANextState : Prop :=
  (∀ (i : Instr) (s : State), ∃ t, exec i s = .next t) ∧ ∀ s : State, s.status = .running → ∃ t, step s = .next t

/-- The status changes in only two ways (R32): from Running to Halted, by `halt`, and from Running to Faulted, by a raise,
which records the pc the step started with. -/
def Obligations.StatusChangesInTwoWays : Prop :=
  ∀ s t : State, step s = .next t → s.status = .running ∧
    (t.status = .running ∨ (t.status = .halted ∧ fetch s = .ok .halt) ∨ ∃ k, t.status = .faulted k s.pc)

/-- A fault is atomic and precise (R77, R127, R128): a step that ends Faulted changes the status alone, and records the
pc it started with. -/
def Obligations.FaultChangesOnlyTheStatus : Prop :=
  ∀ (s t : State) (k : FaultKind) (ip : Raw), step s = .next t → t.status = .faulted k ip →
    ip = s.pc ∧ t = { s with status := .faulted k s.pc }

/-- MEM_WORDS never changes during a run, no step alters the configuration at all, and no launched memory has more than
32768 cells (R41). -/
def Obligations.MemorySizeIsFixed : Prop :=
  (∀ s t : State, step s = .next t → t.cfg = s.cfg) ∧
  (∀ (image : List Byte) (preload : Vector (Option Nat) 8) (cap : Option Nat),
    65536 < image.length → ∃ e, launch image preload cap = .error e) ∧
  ∀ (image : List Byte) (preload : Vector (Option Nat) 8) (cap : Option Nat) (s : State),
    launch image preload cap = .ok s → s.cfg.memWords ≤ 32768

/-- Only `wmem` changes memory (R44): after a step whose memory differs from the one before it, the instruction fetched was a
`wmem`. -/
def Obligations.OnlyWmemChangesMemory : Prop :=
  ∀ s t : State, step s = .next t → t.mem ≠ s.mem → ∃ a b, fetch s = .ok (.wmem a b)

/-- Values above 32767 in memory come only from the launch image (R40): after a step, a cell reads as before or as a value
in [0, 32767]. -/
def Obligations.StepsStoreOnly15BitValues : Prop :=
  ∀ (s t : State) (k : Nat), s.mem.wf → step s = .next t →
    t.mem.readCell k = s.mem.readCell k ∨ (t.mem.readCell k).toNat ≤ 32767

/-- Only `push`, `call`, `pop` and `ret` touch the stack, by one entry at its top (R28). -/
def Obligations.OnlyFourInstructionsTouchTheStack : Prop :=
  ∀ s t : State, step s = .next t →
    t.stack = s.stack ∨
    ((∃ a, fetch s = .ok (.push a) ∨ fetch s = .ok (.call a)) ∧ ∃ e, t.stack = e :: s.stack) ∨
    (((∃ a, fetch s = .ok (.pop a)) ∨ fetch s = .ok .ret) ∧ ∃ e, s.stack = e :: t.stack)

/-- Twelve instructions write a register, each only the one its operand a names, and only when it does not fault (R23). -/
def Obligations.RegistersAreWrittenOnlyByDestinations : Prop :=
  ∀ s t : State, step s = .next t → t.regs ≠ s.regs →
    t.status = .running ∧ ∃ (i : RegIdx) (v : Word), t.regs = s.regs.set i v ∧
      ((∃ b, fetch s = .ok (.set (.register i) b)) ∨ fetch s = .ok (.pop (.register i)) ∨
       (∃ b c, fetch s = .ok (.eq (.register i) b c)) ∨ (∃ b c, fetch s = .ok (.gt (.register i) b c)) ∨
       (∃ b c, fetch s = .ok (.add (.register i) b c)) ∨ (∃ b c, fetch s = .ok (.mult (.register i) b c)) ∨
       (∃ b c, fetch s = .ok (.mod (.register i) b c)) ∨ (∃ b c, fetch s = .ok (.and (.register i) b c)) ∨
       (∃ b c, fetch s = .ok (.or (.register i) b c)) ∨ (∃ b, fetch s = .ok (.not (.register i) b)) ∨
       (∃ b, fetch s = .ok (.rmem (.register i) b)) ∨ fetch s = .ok (.inp (.register i)))

/-- The channels (R111, R112): a step sends at most one byte, behind those already sent, and only for an `out`; it takes at
most one byte, the next one, and only for an `in`; it never closes the source. -/
def Obligations.ChannelsMoveOneByteInOrder : Prop :=
  ∀ s t : State, step s = .next t →
    (t.output = s.output ∨ ∃ a b, fetch s = .ok (.out a) ∧ t.output = s.output ++ [b]) ∧
    (t.input = s.input ∨ ∃ a c, fetch s = .ok (.inp a) ∧ s.input = c :: t.input) ∧
    t.inputClosed = s.inputClosed

/-- Once an instruction is fetched, the operand check comes first and each instruction has at most one fault of its own (R126,
R117): an operand its role forbids is `InvalidOperand`, whatever else holds; with legal operands, a fault is the
instruction's own, and its cause holds. -/
def Obligations.OperandFaultsComeBeforeTheInstructionsOwn : Prop :=
  ∀ (s : State) (i : Instr), s.status = .running → fetch s = .ok i →
    (i.legal = false → step s = .next { s with status := .faulted .invalidOperand s.pc }) ∧
    (i.legal = true → ∀ (t : State) (k : FaultKind) (ip : Raw), step s = .next t → t.status = .faulted k ip →
      (k = .stackUnderflow ∧ ((∃ a, i = .pop a) ∨ i = .ret) ∧ s.stack = []) ∨
      (k = .stackOverflow ∧ (∃ a, i = .push a ∨ i = .call a) ∧ s.cfg.stackCap = some s.stack.length) ∨
      (k = .outOfBounds ∧ ∃ a b addr, (i = .rmem a b ∧ resolveSrc s b = some addr ∨
        i = .wmem a b ∧ resolveSrc s a = some addr) ∧ s.cfg.memWords ≤ addr.toNat) ∨
      (k = .divideByZero ∧ ∃ a b c, i = .mod a b c ∧ resolveSrc s c = some 0) ∨
      (k = .inputExhausted ∧ ∃ a, i = .inp a ∧ s.input = [] ∧ s.inputClosed = true))

/-- The only external event a program meets is the answer to its own `in` (R131, R112): a step that does not run an `in` does
the same whatever the host has ready, and leaves it as it is. -/
def Obligations.OnlyInDependsOnTheInputChannel : Prop :=
  ∀ (s t : State) (bytes : List Byte) (closed : Bool), (∀ a, fetch s ≠ .ok (.inp a)) → step s = .next t →
    step { s with input := bytes, inputClosed := closed } = .next { t with input := bytes, inputClosed := closed }

/-- The fall-through (R79, R19): an instruction that completes, is not waiting and sets no target leaves pc at exactly
ip + 1 + arity, without wrap; `jt` not taken and `jf` not taken are such instructions. -/
def Obligations.FallThroughIsExact : Prop :=
  ∀ (s t : State) (i : Instr), s.cfg.memWords ≤ 32768 → fetch s = .ok i → step s = .next t → t.status = .running →
    ¬ s.Waiting →
    ((∀ a, i ≠ .jmp a) → (∀ a b, i ≠ .jt a b) → (∀ a b, i ≠ .jf a b) → (∀ a, i ≠ .call a) → i ≠ .ret →
      t.pc.toNat = s.pc.toNat + 1 + i.operands.length) ∧
    (∀ a b, i = .jt a b → resolveSrc s a = some 0 → t.pc.toNat = s.pc.toNat + 3) ∧
    (∀ a b v, i = .jf a b → resolveSrc s a = some v → v ≠ 0 → t.pc.toNat = s.pc.toNat + 3)

/-- Fetch is coherent with `wmem` at once (R52): after a `wmem` that stores `v` in cell `addr`, a Running state with that memory
and words at its pc that decode to `i` runs `i`, where the word of cell `addr` is `v` and every other is what the
cell held before. -/
def Obligations.StoreIsSeenByTheNextFetch : Prop :=
  ∀ (s t u : State) (a b : Operand) (addr v : Word) (ws : List Raw) (i : Instr),
    s.mem.wf → resolveSrc s a = some addr → resolveSrc s b = some v → addr.toNat < s.cfg.memWords →
    exec (.wmem a b) s = .next t → u.mem = t.mem → u.cfg = t.cfg → u.status = .running →
    (∀ (k : Nat) (w : Raw), ws[k]? = some w →
      (u.pc.toNat + k = addr.toNat → w.toNat = v.toNat) ∧
      (u.pc.toNat + k ≠ addr.toNat → s.memRead (u.pc.toNat + k) = some w)) →
    decode ws = .ok (i, []) → step u = exec i u

/-- Round trip of `call` and `ret` (R98): once the code between them has left the stack as `call` left it, `ret` gives back the
stack before the call and goes on at the address after the call, whatever the code did to the rest. -/
def Obligations.RetReturnsBehindItsCall : Prop :=
  ∀ (s t u : State) (a : Operand) (v : Word), resolveSrc s a = some v → s.cfg.stackCap ≠ some s.stack.length →
    exec (.call a) s = .next t → u.stack = t.stack →
    t.pc.toNat = v.toNat ∧ exec .ret u = .next { u with pc := s.pc + 2, stack := s.stack }

/-! ### What each instruction does

Each statement gives the words of the instruction, its next state on operands that resolve (every field it does not name is
as before), and its next state where it faults. -/

/-- `halt` (R84): the word 0; in every state the status becomes Halted and everything else stays, pc too. -/
def Obligations.HaltEndsTheRun : Prop :=
  decode [0] = .ok (.halt, []) ∧ ∀ s : State, exec .halt s = .next { s with status := .halted }

/-- `noop` (R85): the word 21; in every state pc advances by 1 and everything else stays. -/
def Obligations.NoopOnlyAdvances : Prop :=
  decode [21] = .ok (.noop, []) ∧ ∀ s : State, exec .noop s = .next { s with pc := s.pc + 1 }

/-- `set` (R86): the words 1, a, b; register a gets the value of source b and pc advances by 3; an operand that does not
resolve faults `InvalidOperand` and writes nothing. -/
def Obligations.SetStoresItsSource : Prop :=
  (∀ a b : Raw, decode [1, a, b] = .ok (.set (classify a) (classify b), [])) ∧
  (∀ (s : State) (i : RegIdx) (b : Operand) (v : Word), resolveSrc s b = some v →
    exec (.set (.register i) b) s = .next { s with pc := s.pc + 3, regs := s.regs.set i v }) ∧
  ∀ (s : State) (a b : Operand), resolveDst a = none ∨ resolveSrc s b = none →
    exec (.set a b) s = .next { s with status := .faulted .invalidOperand s.pc }

/-- `push` (R87): the words 2, a; the value of source a goes on top of the stack and pc advances by 2; at a finite STACK_CAP it
faults `StackOverflow`; a source that does not resolve faults `InvalidOperand`. -/
def Obligations.PushAddsOneEntry : Prop :=
  (∀ a : Raw, decode [2, a] = .ok (.push (classify a), [])) ∧
  (∀ (s : State) (a : Operand) (v : Word), resolveSrc s a = some v → s.cfg.stackCap ≠ some s.stack.length →
    exec (.push a) s = .next { s with pc := s.pc + 2, stack := BitVec.ofNat 16 v.toNat :: s.stack }) ∧
  (∀ (s : State) (a : Operand) (v : Word), resolveSrc s a = some v → s.cfg.stackCap = some s.stack.length →
    exec (.push a) s = .next { s with status := .faulted .stackOverflow s.pc }) ∧
  ∀ (s : State) (a : Operand), resolveSrc s a = none →
    exec (.push a) s = .next { s with status := .faulted .invalidOperand s.pc }

/-- `pop` (R88): the words 3, a; the top entry is removed and its bits [14:0] go to register a; an empty stack faults
`StackUnderflow`; a destination that does not resolve faults `InvalidOperand`, whatever the stack holds. -/
def Obligations.PopTakesTheTopEntry : Prop :=
  (∀ a : Raw, decode [3, a] = .ok (.pop (classify a), [])) ∧
  (∀ (s : State) (i : RegIdx) (e : Raw) (rest : List Raw), s.stack = e :: rest →
    exec (.pop (.register i)) s =
      .next { s with pc := s.pc + 2, stack := rest, regs := s.regs.set i (BitVec.ofNat 15 (e.toNat % 32768)) }) ∧
  (∀ (s : State) (i : RegIdx), s.stack = [] →
    exec (.pop (.register i)) s = .next { s with status := .faulted .stackUnderflow s.pc }) ∧
  ∀ (s : State) (a : Operand), resolveDst a = none →
    exec (.pop a) s = .next { s with status := .faulted .invalidOperand s.pc }

/-- `eq` (R90): the words 4, a, b, c; register a gets 1 if the sources are equal and 0 if not, and pc advances by 4; an operand
that does not resolve faults `InvalidOperand`. -/
def Obligations.EqWritesZeroOrOne : Prop :=
  (∀ a b c : Raw, decode [4, a, b, c] = .ok (.eq (classify a) (classify b) (classify c), [])) ∧
  (∀ (s : State) (i : RegIdx) (b c : Operand) (vb vc : Word), resolveSrc s b = some vb → resolveSrc s c = some vc →
    exec (.eq (.register i) b c) s =
      .next { s with pc := s.pc + 4, regs := s.regs.set i (if vb = vc then 1 else 0) }) ∧
  ∀ (s : State) (a b c : Operand), resolveDst a = none ∨ resolveSrc s b = none ∨ resolveSrc s c = none →
    exec (.eq a b c) s = .next { s with status := .faulted .invalidOperand s.pc }

/-- `gt` (R91): the words 5, a, b, c; register a gets 1 if source b is greater than source c, unsigned and strict, and 0 if not,
and pc advances by 4; an operand that does not resolve faults `InvalidOperand`. -/
def Obligations.GtComparesUnsigned : Prop :=
  (∀ a b c : Raw, decode [5, a, b, c] = .ok (.gt (classify a) (classify b) (classify c), [])) ∧
  (∀ (s : State) (i : RegIdx) (b c : Operand) (vb vc : Word), resolveSrc s b = some vb → resolveSrc s c = some vc →
    exec (.gt (.register i) b c) s =
      .next { s with pc := s.pc + 4, regs := s.regs.set i (if vc.toNat < vb.toNat then 1 else 0) }) ∧
  ∀ (s : State) (a b c : Operand), resolveDst a = none ∨ resolveSrc s b = none ∨ resolveSrc s c = none →
    exec (.gt a b c) s = .next { s with status := .faulted .invalidOperand s.pc }

/-- `jmp` (R93): the words 6, a; pc gets the value of source a, unchecked; a source that does not resolve faults
`InvalidOperand`. -/
def Obligations.JmpGoesToItsTarget : Prop :=
  (∀ a : Raw, decode [6, a] = .ok (.jmp (classify a), [])) ∧
  (∀ (s : State) (a : Operand) (t : Word), resolveSrc s a = some t →
    exec (.jmp a) s = .next { s with pc := BitVec.ofNat 16 t.toNat }) ∧
  ∀ (s : State) (a : Operand), resolveSrc s a = none →
    exec (.jmp a) s = .next { s with status := .faulted .invalidOperand s.pc }

/-- `jt` (R94): the words 7, a, b; pc gets the value of source b if source a is not 0, and advances by 3 if it is; an invalid target faults even when the branch is not taken. -/
def Obligations.JtBranchesOnNonzero : Prop :=
  (∀ a b : Raw, decode [7, a, b] = .ok (.jt (classify a) (classify b), [])) ∧
  (∀ (s : State) (a b : Operand) (c t : Word), resolveSrc s a = some c → resolveSrc s b = some t →
    exec (.jt a b) s = .next { s with pc := if c = 0 then s.pc + 3 else BitVec.ofNat 16 t.toNat }) ∧
  ∀ (s : State) (a b : Operand), resolveSrc s a = none ∨ resolveSrc s b = none →
    exec (.jt a b) s = .next { s with status := .faulted .invalidOperand s.pc }

/-- `jf` (R95): the words 8, a, b; pc gets the value of source b if source a is 0, and advances by 3 if it is not; an invalid target faults even when the branch is not taken. -/
def Obligations.JfBranchesOnZero : Prop :=
  (∀ a b : Raw, decode [8, a, b] = .ok (.jf (classify a) (classify b), [])) ∧
  (∀ (s : State) (a b : Operand) (c t : Word), resolveSrc s a = some c → resolveSrc s b = some t →
    exec (.jf a b) s = .next { s with pc := if c = 0 then BitVec.ofNat 16 t.toNat else s.pc + 3 }) ∧
  ∀ (s : State) (a b : Operand), resolveSrc s a = none ∨ resolveSrc s b = none →
    exec (.jf a b) s = .next { s with status := .faulted .invalidOperand s.pc }

/-- `call` (R96): the words 17, a; ip + 2 is pushed unmasked and pc gets the value of source a, unchecked; the sum is exact
wherever the instruction's two cells exist; at a finite STACK_CAP it faults `StackOverflow`; a source that does not resolve
faults `InvalidOperand`. -/
def Obligations.CallPushesTheAddressBehindIt : Prop :=
  (∀ a : Raw, decode [17, a] = .ok (.call (classify a), [])) ∧
  (∀ (s : State) (a : Operand) (t : Word), resolveSrc s a = some t → s.cfg.stackCap ≠ some s.stack.length →
    exec (.call a) s = .next { s with pc := BitVec.ofNat 16 t.toNat, stack := (s.pc + 2) :: s.stack } ∧
    (s.pc.toNat + 1 < s.cfg.memWords → s.cfg.memWords ≤ 32768 → (s.pc + 2).toNat = s.pc.toNat + 2)) ∧
  (∀ (s : State) (a : Operand) (t : Word), resolveSrc s a = some t → s.cfg.stackCap = some s.stack.length →
    exec (.call a) s = .next { s with status := .faulted .stackOverflow s.pc }) ∧
  ∀ (s : State) (a : Operand), resolveSrc s a = none →
    exec (.call a) s = .next { s with status := .faulted .invalidOperand s.pc }

/-- `ret` (R97): the word 18; pc gets the top entry, which is removed; an empty stack faults `StackUnderflow`, and never halts. -/
def Obligations.RetGoesToTheTopEntry : Prop :=
  decode [18] = .ok (.ret, []) ∧
  (∀ (s : State) (e : Raw) (rest : List Raw), s.stack = e :: rest →
    exec .ret s = .next { s with pc := e, stack := rest }) ∧
  ∀ s : State, s.stack = [] → exec .ret s = .next { s with status := .faulted .stackUnderflow s.pc }

/-- `add` (R102): the words 9, a, b, c; register a gets the sum of the sources mod 32768 and pc advances by 4; an operand that
does not resolve faults `InvalidOperand`. -/
def Obligations.AddIsModulo32768 : Prop :=
  (∀ a b c : Raw, decode [9, a, b, c] = .ok (.add (classify a) (classify b) (classify c), [])) ∧
  (∀ (s : State) (i : RegIdx) (b c : Operand) (vb vc : Word), resolveSrc s b = some vb → resolveSrc s c = some vc →
    exec (.add (.register i) b c) s = .next { s with
      pc := s.pc + 4, regs := s.regs.set i (BitVec.ofNat 15 ((vb.toNat + vc.toNat) % 32768)) }) ∧
  ∀ (s : State) (a b c : Operand), resolveDst a = none ∨ resolveSrc s b = none ∨ resolveSrc s c = none →
    exec (.add a b c) s = .next { s with status := .faulted .invalidOperand s.pc }

/-- `mult` (R103): the words 10, a, b, c; register a gets the exact product of the sources mod 32768 and pc advances by 4; an
operand that does not resolve faults `InvalidOperand`. -/
def Obligations.MultIsModulo32768 : Prop :=
  (∀ a b c : Raw, decode [10, a, b, c] = .ok (.mult (classify a) (classify b) (classify c), [])) ∧
  (∀ (s : State) (i : RegIdx) (b c : Operand) (vb vc : Word), resolveSrc s b = some vb → resolveSrc s c = some vc →
    exec (.mult (.register i) b c) s = .next { s with
      pc := s.pc + 4, regs := s.regs.set i (BitVec.ofNat 15 ((vb.toNat * vc.toNat) % 32768)) }) ∧
  ∀ (s : State) (a b c : Operand), resolveDst a = none ∨ resolveSrc s b = none ∨ resolveSrc s c = none →
    exec (.mult a b c) s = .next { s with status := .faulted .invalidOperand s.pc }

/-- `mod` (R104, R123): the words 11, a, b, c; register a gets the unsigned remainder of source b by source c and pc advances
by 4; a divisor of 0 faults `DivideByZero` once every operand has resolved, and an operand that does not resolve faults
`InvalidOperand`. -/
def Obligations.ModIsTheUnsignedRemainder : Prop :=
  (∀ a b c : Raw, decode [11, a, b, c] = .ok (.mod (classify a) (classify b) (classify c), [])) ∧
  (∀ (s : State) (i : RegIdx) (b c : Operand) (vb vc : Word), resolveSrc s b = some vb → resolveSrc s c = some vc →
    vc ≠ 0 → ∃ r : Word, r.toNat = vb.toNat % vc.toNat ∧
      exec (.mod (.register i) b c) s = .next { s with pc := s.pc + 4, regs := s.regs.set i r }) ∧
  (∀ (s : State) (i : RegIdx) (b c : Operand) (vb : Word), resolveSrc s b = some vb → resolveSrc s c = some 0 →
    exec (.mod (.register i) b c) s = .next { s with status := .faulted .divideByZero s.pc }) ∧
  ∀ (s : State) (a b c : Operand), resolveDst a = none ∨ resolveSrc s b = none ∨ resolveSrc s c = none →
    exec (.mod a b c) s = .next { s with status := .faulted .invalidOperand s.pc }

/-- `and` (R105): the words 12, a, b, c; register a gets the bitwise AND of the sources, masked to 15 bits, and pc advances by 4;
an operand that does not resolve faults `InvalidOperand`. -/
def Obligations.AndIsBitwise : Prop :=
  (∀ a b c : Raw, decode [12, a, b, c] = .ok (.and (classify a) (classify b) (classify c), [])) ∧
  (∀ (s : State) (i : RegIdx) (b c : Operand) (vb vc : Word), resolveSrc s b = some vb → resolveSrc s c = some vc →
    exec (.and (.register i) b c) s = .next { s with
      pc := s.pc + 4, regs := s.regs.set i (BitVec.ofNat 15 ((vb.toNat &&& vc.toNat) &&& 0x7FFF)) }) ∧
  ∀ (s : State) (a b c : Operand), resolveDst a = none ∨ resolveSrc s b = none ∨ resolveSrc s c = none →
    exec (.and a b c) s = .next { s with status := .faulted .invalidOperand s.pc }

/-- `or` (R106): the words 13, a, b, c; register a gets the bitwise OR of the sources, masked to 15 bits, and pc advances by 4;
an operand that does not resolve faults `InvalidOperand`. -/
def Obligations.OrIsBitwise : Prop :=
  (∀ a b c : Raw, decode [13, a, b, c] = .ok (.or (classify a) (classify b) (classify c), [])) ∧
  (∀ (s : State) (i : RegIdx) (b c : Operand) (vb vc : Word), resolveSrc s b = some vb → resolveSrc s c = some vc →
    exec (.or (.register i) b c) s = .next { s with
      pc := s.pc + 4, regs := s.regs.set i (BitVec.ofNat 15 ((vb.toNat ||| vc.toNat) &&& 0x7FFF)) }) ∧
  ∀ (s : State) (a b c : Operand), resolveDst a = none ∨ resolveSrc s b = none ∨ resolveSrc s c = none →
    exec (.or a b c) s = .next { s with status := .faulted .invalidOperand s.pc }

/-- `not` (R107): the words 14, a, b; register a gets 32767 minus the source, its complement on 15 bits, and pc advances by 3; an
operand that does not resolve faults `InvalidOperand`. -/
def Obligations.NotIsTheComplementOn15Bits : Prop :=
  (∀ a b : Raw, decode [14, a, b] = .ok (.not (classify a) (classify b), [])) ∧
  (∀ (s : State) (i : RegIdx) (b : Operand) (vb : Word), resolveSrc s b = some vb →
    exec (.not (.register i) b) s = .next { s with
      pc := s.pc + 3, regs := s.regs.set i (BitVec.ofNat 15 (32767 - vb.toNat)) }) ∧
  ∀ (s : State) (a b : Operand), resolveDst a = none ∨ resolveSrc s b = none →
    exec (.not a b) s = .next { s with status := .faulted .invalidOperand s.pc }

/-- `rmem` (R109): the words 15, a, b; register a gets bits [14:0] of the cell that source b addresses and pc advances by 3; an
address at or past MEM_WORDS faults `OutOfBounds`, and an operand that does not resolve `InvalidOperand`. -/
def Obligations.RmemReadsOneCell : Prop :=
  (∀ a b : Raw, decode [15, a, b] = .ok (.rmem (classify a) (classify b), [])) ∧
  (∀ (s : State) (i : RegIdx) (b : Operand) (addr : Word), resolveSrc s b = some addr → addr.toNat < s.cfg.memWords →
    exec (.rmem (.register i) b) s = .next { s with
      pc := s.pc + 3, regs := s.regs.set i (BitVec.ofNat 15 ((s.mem.readCell addr.toNat).toNat % 32768)) }) ∧
  (∀ (s : State) (i : RegIdx) (b : Operand) (addr : Word), resolveSrc s b = some addr → s.cfg.memWords ≤ addr.toNat →
    exec (.rmem (.register i) b) s = .next { s with status := .faulted .outOfBounds s.pc }) ∧
  ∀ (s : State) (a b : Operand), resolveDst a = none ∨ resolveSrc s b = none →
    exec (.rmem a b) s = .next { s with status := .faulted .invalidOperand s.pc }

/-- `wmem` (R110): the words 16, a, b; the cell that source a addresses reads as the value of source b after it and every other
cell as before, and pc advances by 3; an address at or past MEM_WORDS faults `OutOfBounds`, and an operand that does not
resolve `InvalidOperand`. -/
def Obligations.WmemWritesOneCell : Prop :=
  (∀ a b : Raw, decode [16, a, b] = .ok (.wmem (classify a) (classify b), [])) ∧
  (∀ (s : State) (a b : Operand) (addr v : Word), s.mem.wf → resolveSrc s a = some addr → resolveSrc s b = some v →
    addr.toNat < s.cfg.memWords → ∃ m : Memory, m.wf ∧ (m.readCell addr.toNat).toNat = v.toNat ∧
      (∀ k, k ≠ addr.toNat → m.readCell k = s.mem.readCell k) ∧
      exec (.wmem a b) s = .next { s with pc := s.pc + 3, mem := m }) ∧
  (∀ (s : State) (a b : Operand) (addr v : Word), resolveSrc s a = some addr → resolveSrc s b = some v →
    s.cfg.memWords ≤ addr.toNat → exec (.wmem a b) s = .next { s with status := .faulted .outOfBounds s.pc }) ∧
  ∀ (s : State) (a b : Operand), resolveSrc s a = none ∨ resolveSrc s b = none →
    exec (.wmem a b) s = .next { s with status := .faulted .invalidOperand s.pc }

/-- `out` (R115): the words 19, a; the low 8 bits of source a go behind the bytes already sent and pc advances by 2; a source
that does not resolve faults `InvalidOperand` and sends nothing. -/
def Obligations.OutEmitsTheLowByte : Prop :=
  (∀ a : Raw, decode [19, a] = .ok (.out (classify a), [])) ∧
  (∀ (s : State) (a : Operand) (v : Word), resolveSrc s a = some v →
    exec (.out a) s = .next { s with pc := s.pc + 2, output := s.output ++ [BitVec.ofNat 8 (v.toNat % 256)] }) ∧
  ∀ (s : State) (a : Operand), resolveSrc s a = none →
    exec (.out a) s = .next { s with status := .faulted .invalidOperand s.pc }

/-- `in` (after R116, R114 and R113): the words 20, a; with a byte ready, the byte is taken and zero-extended into register a, and
pc advances by 2; with the source closed and empty it faults `InputExhausted`; with neither it waits, and nothing changes; a
destination that does not resolve faults `InvalidOperand` and takes no byte. A line comes as its bytes and then its
terminator, all of them ordinary bytes. Three forms are the model's choices: the ready bytes and the closed flag (log 5), a
wait as a next state equal to the state before it (log 6), and a line as a move of the host (log 10). -/
def Obligations.InTakesTheNextByteOrWaits : Prop :=
  (∀ a : Raw, decode [20, a] = .ok (.inp (classify a), [])) ∧
  (∀ (s : State) (i : RegIdx) (c : Byte) (rest : List Byte), s.input = c :: rest →
    exec (.inp (.register i)) s =
      .next { s with pc := s.pc + 2, input := rest, regs := s.regs.set i (BitVec.ofNat 15 c.toNat) }) ∧
  (∀ (s : State) (i : RegIdx), s.input = [] → s.inputClosed = true →
    exec (.inp (.register i)) s = .next { s with status := .faulted .inputExhausted s.pc }) ∧
  (∀ (s : State) (i : RegIdx), s.input = [] → s.inputClosed = false → exec (.inp (.register i)) s = .next s) ∧
  (∀ (s : State) (line lineTerminator : List Byte), s.inputClosed = false →
    (s.hostLine lineTerminator line).input = s.input ++ line ++ lineTerminator) ∧
  ∀ (s : State) (a : Operand), resolveDst a = none →
    exec (.inp a) s = .next { s with status := .faulted .invalidOperand s.pc }

/-! ### Frames -/

/-- The frame of the forms that write one register and nothing else (`set`, `eq`, `gt`, `add`, `mult`, `mod`, `and`, `or`, `not`,
`rmem`): every register but the one operand a names is unchanged, every byte of memory reads as before, and so do the stack,
both channels and the configuration (R23, R44). The pc may change; the status changes only where the instruction faults. -/
def Obligations.RegisterFormsChangeOnlyTheirDestination : Prop :=
  ∀ (s t : State) (a b c : Operand),
    (exec (.set a b) s = .next t ∨ exec (.eq a b c) s = .next t ∨ exec (.gt a b c) s = .next t ∨
      exec (.add a b c) s = .next t ∨ exec (.mult a b c) s = .next t ∨ exec (.mod a b c) s = .next t ∨
      exec (.and a b c) s = .next t ∨ exec (.or a b c) s = .next t ∨ exec (.not a b) s = .next t ∨
      exec (.rmem a b) s = .next t) →
    (∀ j : RegIdx, resolveDst a ≠ some j → t.readReg j = s.readReg j) ∧
    (∀ x : Nat, t.mem.readByte x = s.mem.readByte x) ∧
    t.stack = s.stack ∧ t.output = s.output ∧ t.input = s.input ∧ t.inputClosed = s.inputClosed ∧ t.cfg = s.cfg ∧
    (t.status = s.status ∨ ∃ k, t.status = .faulted k s.pc)

/-- The frame of the forms that write no register and no memory (`halt`, `noop`, `jmp`, `jt`, `jf`, `push`, `call`, `ret`, `out`):
every register and every byte of memory is unchanged, the input channel and the configuration too; the stack changes only
in `push`, `call` and `ret`, the output only in `out` (R23, R28, R44). -/
def Obligations.ControlFormsChangeNoRegisterOrMemory : Prop :=
  ∀ (s t : State) (a b : Operand) (i : Instr),
    (i = .halt ∨ i = .noop ∨ i = .jmp a ∨ i = .jt a b ∨ i = .jf a b ∨ i = .push a ∨ i = .call a ∨ i = .ret ∨ i = .out a) →
    exec i s = .next t →
    (∀ j : RegIdx, t.readReg j = s.readReg j) ∧ (∀ x : Nat, t.mem.readByte x = s.mem.readByte x) ∧
    t.input = s.input ∧ t.inputClosed = s.inputClosed ∧ t.cfg = s.cfg ∧
    (i ≠ .push a → i ≠ .call a → i ≠ .ret → t.stack = s.stack) ∧ (i ≠ .out a → t.output = s.output) ∧
    (t.status = s.status ∨ (i = .halt ∧ t.status = .halted) ∨ ∃ k, t.status = .faulted k s.pc)

/-- The frame of the forms that take something in (`pop`, `in`): every register but the one operand a names and every byte of
memory is unchanged, the output and the configuration too; only `pop` changes the stack, only `in` the input (R23, R28, R44). -/
def Obligations.PopAndInChangeOneRegisterAndTheirSource : Prop :=
  ∀ (s t : State) (a : Operand) (i : Instr), (i = .pop a ∨ i = .inp a) → exec i s = .next t →
    (∀ j : RegIdx, resolveDst a ≠ some j → t.readReg j = s.readReg j) ∧
    (∀ x : Nat, t.mem.readByte x = s.mem.readByte x) ∧
    t.output = s.output ∧ t.inputClosed = s.inputClosed ∧ t.cfg = s.cfg ∧
    (i = .inp a → t.stack = s.stack) ∧ (i = .pop a → t.input = s.input) ∧
    (t.status = s.status ∨ ∃ k, t.status = .faulted k s.pc)

/-- The frame of `wmem` (R43, R110): with the address it stores to computed as the instruction computes it, by resolving
operand a in the state before it, every byte outside the two of that cell reads as before; with no address it stores
nothing. Every register, the stack, both channels and the configuration are unchanged. -/
def Obligations.WmemChangesOnlyItsCell : Prop :=
  ∀ (s t : State) (a b : Operand), s.mem.wf → exec (.wmem a b) s = .next t →
    (∀ addr : Word, resolveSrc s a = some addr →
      ∀ x : Nat, x ≠ 2 * addr.toNat → x ≠ 2 * addr.toNat + 1 → t.mem.readByte x = s.mem.readByte x) ∧
    (resolveSrc s a = none ∨ resolveSrc s b = none → ∀ x : Nat, t.mem.readByte x = s.mem.readByte x) ∧
    (∀ j : RegIdx, t.readReg j = s.readReg j) ∧
    t.stack = s.stack ∧ t.output = s.output ∧ t.input = s.input ∧ t.inputClosed = s.inputClosed ∧ t.cfg = s.cfg ∧
    (t.status = s.status ∨ ∃ k, t.status = .faulted k s.pc)
end

