-- ==== Sys2Proof/Laws/Decode.lean ====
section
/-! SUPPORT. The operand classes and their encoding, and what the decoder does with an opcode word. -/

namespace Sys2Proof

theorem classify_literal {w : Raw} (h : w.toNat ≤ 32767) : classify w = .literal (w.setWidth 15) := by
  simp only [classify, regBase]
  rw [if_pos (by omega)]

theorem classify_register {w : Raw} (h : 32768 ≤ w.toNat) (h' : w.toNat ≤ 32775) :
    classify w = .register (Fin.ofNat 8 (w.toNat - 32768)) := by
  simp only [classify, regBase]
  rw [if_neg (by omega), if_pos (by omega)]

theorem classify_invalid {w : Raw} (h : 32776 ≤ w.toNat) : classify w = .invalid w := by
  simp only [classify, regBase]
  rw [if_neg (by omega), if_neg (by omega)]

/-- The class of a word is well formed, whatever the word (R57). -/
theorem wellFormed_classify (w : Raw) : (classify w).wellFormed = true := by
  rcases Nat.lt_or_ge w.toNat 32768 with h | h
  · rw [classify_literal (by omega)]; rfl
  · rcases Nat.lt_or_ge w.toNat 32776 with h' | h'
    · rw [classify_register h (by omega)]; rfl
    · rw [classify_invalid h']; simpa [Operand.wellFormed] using h'

/-- No bit of an operand word is lost by its class. -/
theorem encodeOperand_classify (w : Raw) : encodeOperand (classify w) = w := by
  apply BitVec.eq_of_toNat_eq
  rcases Nat.lt_or_ge w.toNat 32768 with h | h
  · rw [classify_literal (by omega)]
    simp only [encodeOperand, BitVec.toNat_setWidth]
    omega
  · rcases Nat.lt_or_ge w.toNat 32776 with h' | h'
    · rw [classify_register h (by omega)]
      simp only [encodeOperand, regBase, Fin.ofNat, BitVec.toNat_ofNat]
      omega
    · rw [classify_invalid h']; rfl

/-- A well-formed operand is the class of its own encoding. -/
theorem classify_encodeOperand {a : Operand} (h : a.wellFormed = true) : classify (encodeOperand a) = a := by
  cases a with
  | literal v =>
    have hv := v.isLt
    have hn : (v.setWidth 16 : Raw).toNat = v.toNat := by
      simp only [BitVec.toNat_setWidth]; omega
    rw [encodeOperand, classify_literal (by omega)]
    congr 1
    apply BitVec.eq_of_toNat_eq
    rw [BitVec.toNat_setWidth, hn]
    omega
  | register i =>
    have hi := i.isLt
    have hn : (BitVec.ofNat 16 (regBase + i.val) : Raw).toNat = 32768 + i.val := by
      simp only [BitVec.toNat_ofNat, regBase]; omega
    rw [encodeOperand, classify_register (by omega) (by omega), hn]
    refine congrArg Operand.register (Fin.ext ?_)
    simp only [Fin.ofNat]
    omega
  | invalid w =>
    have hw : 32776 ≤ w.toNat := by simpa [Operand.wellFormed] using h
    exact classify_invalid hw

theorem arity_of_large {op : Raw} (h : 22 ≤ op.toNat) : arity op = none := by
  unfold arity
  obtain ⟨k, hk⟩ := Nat.exists_eq_add_of_le' h
  rw [hk]
  rfl

theorem decode_of_large {op : Raw} (h : 22 ≤ op.toNat) (ws : List Raw) :
    decode (op :: ws) = .error (.unknownOpcode op) := by
  simp only [decode]
  obtain ⟨k, hk⟩ := Nat.exists_eq_add_of_le' h
  rw [hk]
  rfl

theorem arity_eq_none {op : Raw} : arity op = none ↔ 22 ≤ op.toNat := by
  refine ⟨fun h => ?_, arity_of_large⟩
  by_contra hlt
  unfold arity at h
  generalize op.toNat = m at *
  interval_cases m <;> cases h

/-- The operand words an opcode takes are all the decoder needs, and it leaves none of them over (R62, R63). -/
theorem decode_of_arity {op : Raw} {n : Nat} {ws : List Raw} (h : arity op = some n) (hl : ws.length = n) :
    ∃ i, decode (op :: ws) = .ok (i, []) := by
  have hlt : op.toNat < 22 := by
    by_contra hge
    rw [arity_of_large (by omega)] at h
    cases h
  unfold arity at h
  simp only [decode]
  generalize op.toNat = m at *
  interval_cases m <;> injection h with h <;> subst h
  all_goals
    first
    | obtain rfl := List.length_eq_zero_iff.1 hl; exact ⟨_, rfl⟩
    | obtain ⟨a, rfl⟩ := List.length_eq_one_iff.1 hl; exact ⟨_, rfl⟩
    | obtain ⟨a, b, rfl⟩ := List.length_eq_two.1 hl; exact ⟨_, rfl⟩
    | obtain ⟨a, b, c, rfl⟩ := List.length_eq_three.1 hl; exact ⟨_, rfl⟩

end Sys2Proof
end

