-- ==== Sys2Proof/Laws/State.lean ====
section
/-! SUPPORT. What each named update of the state does to each field. -/

namespace Sys2Proof.Machine

variable (s : State)

/-! ### memWrite -/

@[simp] theorem State.memWrite_cfg (addr : Nat) (v : Raw) : (s.memWrite addr v).cfg = s.cfg := rfl
@[simp] theorem State.memWrite_pc (addr : Nat) (v : Raw) : (s.memWrite addr v).pc = s.pc := rfl
@[simp] theorem State.memWrite_regs (addr : Nat) (v : Raw) : (s.memWrite addr v).regs = s.regs := rfl
@[simp] theorem State.memWrite_stack (addr : Nat) (v : Raw) : (s.memWrite addr v).stack = s.stack := rfl
@[simp] theorem State.memWrite_mem (addr : Nat) (v : Raw) : (s.memWrite addr v).mem = s.mem.writeCell addr v := rfl
@[simp] theorem State.memWrite_status (addr : Nat) (v : Raw) : (s.memWrite addr v).status = s.status := rfl
@[simp] theorem State.memWrite_output (addr : Nat) (v : Raw) : (s.memWrite addr v).output = s.output := rfl
@[simp] theorem State.memWrite_input (addr : Nat) (v : Raw) : (s.memWrite addr v).input = s.input := rfl
@[simp] theorem State.memWrite_inputClosed (addr : Nat) (v : Raw) : (s.memWrite addr v).inputClosed = s.inputClosed := rfl

/-! ### writeReg -/

@[simp] theorem State.writeReg_cfg (i : RegIdx) (v : Raw) : (s.writeReg i v).cfg = s.cfg := rfl
@[simp] theorem State.writeReg_pc (i : RegIdx) (v : Raw) : (s.writeReg i v).pc = s.pc := rfl
@[simp] theorem State.writeReg_regs (i : RegIdx) (v : Raw) : (s.writeReg i v).regs = s.regs.set i (v.setWidth 15) := rfl
@[simp] theorem State.writeReg_stack (i : RegIdx) (v : Raw) : (s.writeReg i v).stack = s.stack := rfl
@[simp] theorem State.writeReg_mem (i : RegIdx) (v : Raw) : (s.writeReg i v).mem = s.mem := rfl
@[simp] theorem State.writeReg_status (i : RegIdx) (v : Raw) : (s.writeReg i v).status = s.status := rfl
@[simp] theorem State.writeReg_output (i : RegIdx) (v : Raw) : (s.writeReg i v).output = s.output := rfl
@[simp] theorem State.writeReg_input (i : RegIdx) (v : Raw) : (s.writeReg i v).input = s.input := rfl
@[simp] theorem State.writeReg_inputClosed (i : RegIdx) (v : Raw) : (s.writeReg i v).inputClosed = s.inputClosed := rfl

/-! ### pushEntry -/

@[simp] theorem State.pushEntry_cfg (v : Raw) : (s.pushEntry v).cfg = s.cfg := rfl
@[simp] theorem State.pushEntry_pc (v : Raw) : (s.pushEntry v).pc = s.pc := rfl
@[simp] theorem State.pushEntry_regs (v : Raw) : (s.pushEntry v).regs = s.regs := rfl
@[simp] theorem State.pushEntry_stack (v : Raw) : (s.pushEntry v).stack = v :: s.stack := rfl
@[simp] theorem State.pushEntry_mem (v : Raw) : (s.pushEntry v).mem = s.mem := rfl
@[simp] theorem State.pushEntry_status (v : Raw) : (s.pushEntry v).status = s.status := rfl
@[simp] theorem State.pushEntry_output (v : Raw) : (s.pushEntry v).output = s.output := rfl
@[simp] theorem State.pushEntry_input (v : Raw) : (s.pushEntry v).input = s.input := rfl
@[simp] theorem State.pushEntry_inputClosed (v : Raw) : (s.pushEntry v).inputClosed = s.inputClosed := rfl

/-! ### dropTop -/

@[simp] theorem State.dropTop_cfg : (s.dropTop).cfg = s.cfg := rfl
@[simp] theorem State.dropTop_pc : (s.dropTop).pc = s.pc := rfl
@[simp] theorem State.dropTop_regs : (s.dropTop).regs = s.regs := rfl
@[simp] theorem State.dropTop_stack : (s.dropTop).stack = s.stack.tail := rfl
@[simp] theorem State.dropTop_mem : (s.dropTop).mem = s.mem := rfl
@[simp] theorem State.dropTop_status : (s.dropTop).status = s.status := rfl
@[simp] theorem State.dropTop_output : (s.dropTop).output = s.output := rfl
@[simp] theorem State.dropTop_input : (s.dropTop).input = s.input := rfl
@[simp] theorem State.dropTop_inputClosed : (s.dropTop).inputClosed = s.inputClosed := rfl

/-! ### jumpTo -/

@[simp] theorem State.jumpTo_cfg (t : Raw) : (s.jumpTo t).cfg = s.cfg := rfl
@[simp] theorem State.jumpTo_pc (t : Raw) : (s.jumpTo t).pc = t := rfl
@[simp] theorem State.jumpTo_regs (t : Raw) : (s.jumpTo t).regs = s.regs := rfl
@[simp] theorem State.jumpTo_stack (t : Raw) : (s.jumpTo t).stack = s.stack := rfl
@[simp] theorem State.jumpTo_mem (t : Raw) : (s.jumpTo t).mem = s.mem := rfl
@[simp] theorem State.jumpTo_status (t : Raw) : (s.jumpTo t).status = s.status := rfl
@[simp] theorem State.jumpTo_output (t : Raw) : (s.jumpTo t).output = s.output := rfl
@[simp] theorem State.jumpTo_input (t : Raw) : (s.jumpTo t).input = s.input := rfl
@[simp] theorem State.jumpTo_inputClosed (t : Raw) : (s.jumpTo t).inputClosed = s.inputClosed := rfl

/-! ### fallThrough -/

@[simp] theorem State.fallThrough_cfg (n : Nat) : (s.fallThrough n).cfg = s.cfg := rfl
@[simp] theorem State.fallThrough_pc (n : Nat) : (s.fallThrough n).pc = s.pc + BitVec.ofNat 16 (1 + n) := rfl
@[simp] theorem State.fallThrough_regs (n : Nat) : (s.fallThrough n).regs = s.regs := rfl
@[simp] theorem State.fallThrough_stack (n : Nat) : (s.fallThrough n).stack = s.stack := rfl
@[simp] theorem State.fallThrough_mem (n : Nat) : (s.fallThrough n).mem = s.mem := rfl
@[simp] theorem State.fallThrough_status (n : Nat) : (s.fallThrough n).status = s.status := rfl
@[simp] theorem State.fallThrough_output (n : Nat) : (s.fallThrough n).output = s.output := rfl
@[simp] theorem State.fallThrough_input (n : Nat) : (s.fallThrough n).input = s.input := rfl
@[simp] theorem State.fallThrough_inputClosed (n : Nat) : (s.fallThrough n).inputClosed = s.inputClosed := rfl

/-! ### emit -/

@[simp] theorem State.emit_cfg (b : Byte) : (s.emit b).cfg = s.cfg := rfl
@[simp] theorem State.emit_pc (b : Byte) : (s.emit b).pc = s.pc := rfl
@[simp] theorem State.emit_regs (b : Byte) : (s.emit b).regs = s.regs := rfl
@[simp] theorem State.emit_stack (b : Byte) : (s.emit b).stack = s.stack := rfl
@[simp] theorem State.emit_mem (b : Byte) : (s.emit b).mem = s.mem := rfl
@[simp] theorem State.emit_status (b : Byte) : (s.emit b).status = s.status := rfl
@[simp] theorem State.emit_output (b : Byte) : (s.emit b).output = s.output ++ [b] := rfl
@[simp] theorem State.emit_input (b : Byte) : (s.emit b).input = s.input := rfl
@[simp] theorem State.emit_inputClosed (b : Byte) : (s.emit b).inputClosed = s.inputClosed := rfl

/-! ### consume -/

@[simp] theorem State.consume_cfg : (s.consume).cfg = s.cfg := rfl
@[simp] theorem State.consume_pc : (s.consume).pc = s.pc := rfl
@[simp] theorem State.consume_regs : (s.consume).regs = s.regs := rfl
@[simp] theorem State.consume_stack : (s.consume).stack = s.stack := rfl
@[simp] theorem State.consume_mem : (s.consume).mem = s.mem := rfl
@[simp] theorem State.consume_status : (s.consume).status = s.status := rfl
@[simp] theorem State.consume_output : (s.consume).output = s.output := rfl
@[simp] theorem State.consume_input : (s.consume).input = s.input.tail := rfl
@[simp] theorem State.consume_inputClosed : (s.consume).inputClosed = s.inputClosed := rfl

/-! ### raise -/

@[simp] theorem State.raise_cfg (k : FaultKind) : (s.raise k).cfg = s.cfg := rfl
@[simp] theorem State.raise_pc (k : FaultKind) : (s.raise k).pc = s.pc := rfl
@[simp] theorem State.raise_regs (k : FaultKind) : (s.raise k).regs = s.regs := rfl
@[simp] theorem State.raise_stack (k : FaultKind) : (s.raise k).stack = s.stack := rfl
@[simp] theorem State.raise_mem (k : FaultKind) : (s.raise k).mem = s.mem := rfl
@[simp] theorem State.raise_status (k : FaultKind) : (s.raise k).status = .faulted k s.pc := rfl
@[simp] theorem State.raise_output (k : FaultKind) : (s.raise k).output = s.output := rfl
@[simp] theorem State.raise_input (k : FaultKind) : (s.raise k).input = s.input := rfl
@[simp] theorem State.raise_inputClosed (k : FaultKind) : (s.raise k).inputClosed = s.inputClosed := rfl

/-! ### halt -/

@[simp] theorem State.halt_cfg : (s.halt).cfg = s.cfg := rfl
@[simp] theorem State.halt_pc : (s.halt).pc = s.pc := rfl
@[simp] theorem State.halt_regs : (s.halt).regs = s.regs := rfl
@[simp] theorem State.halt_stack : (s.halt).stack = s.stack := rfl
@[simp] theorem State.halt_mem : (s.halt).mem = s.mem := rfl
@[simp] theorem State.halt_status : (s.halt).status = .halted := rfl
@[simp] theorem State.halt_output : (s.halt).output = s.output := rfl
@[simp] theorem State.halt_input : (s.halt).input = s.input := rfl
@[simp] theorem State.halt_inputClosed : (s.halt).inputClosed = s.inputClosed := rfl

end Sys2Proof.Machine
end

