-- ==== Sys2Proof/Laws/Memory.lean ====
section
/-! SUPPORT. Memory: read after write, the canonical form and the bound on listed addresses, for bytes and for cells. -/

namespace Sys2Proof.Machine

/-- Every listed byte address lies below `n`. -/
abbrev Memory.below (m : Memory) (n : Nat) : Prop := ∀ c ∈ m, c.1 < n

theorem Memory.wf_tail {c : Host.Cell} {m : Memory} (h : Memory.wf (c :: m)) : Memory.wf m :=
  ⟨h.1.of_cons, fun d hd => h.2 d (List.mem_cons_of_mem _ hd)⟩

theorem Memory.wf_head_lt {c : Host.Cell} {m : Memory} (h : Memory.wf (c :: m)) : ∀ d ∈ m, c.1 < d.1 :=
  (List.pairwise_cons.1 h.1).1

theorem Memory.wf_head_listed {c : Host.Cell} {m : Memory} (h : Memory.wf (c :: m)) : c.2 ≠ Memory.unlisted :=
  h.2 c List.mem_cons_self

theorem Memory.wf_cons {c : Host.Cell} {m : Memory} (hlt : ∀ d ∈ m, c.1 < d.1) (hc : c.2 ≠ Memory.unlisted)
    (h : Memory.wf m) : Memory.wf (c :: m) :=
  ⟨List.pairwise_cons.2 ⟨hlt, h.1⟩, by simpa using ⟨hc, fun a b hd => h.2 (a, b) hd⟩⟩

theorem Memory.readByte_of_notListed {m : Memory} {a : Nat} (h : ∀ c ∈ m, c.1 ≠ a) : m.readByte a = Memory.unlisted := by
  induction m with
  | nil => rfl
  | cons c m ih =>
    have hc : a ≠ c.1 := fun e => h c List.mem_cons_self e.symm
    simp only [Memory.readByte, hc, if_false]
    exact ih fun d hd => h d (List.mem_cons_of_mem _ hd)

/-- Whatever `writeByte` lists was listed before or is the byte written. -/
theorem Memory.mem_writeByte {m : Memory} {a : Nat} {v : Byte} {c : Host.Cell} (h : c ∈ m.writeByte a v) :
    c ∈ m ∨ c = (a, v) := by
  induction m with
  | nil =>
    unfold Memory.writeByte at h
    split at h <;> simp_all
  | cons d m ih =>
    unfold Memory.writeByte at h
    split at h
    · split at h
      · exact .inl h
      · rcases List.mem_cons.1 h with h | h
        · exact .inr h
        · exact .inl h
    · split at h
      · split at h
        · exact .inl (List.mem_cons_of_mem _ h)
        · rcases List.mem_cons.1 h with h | h
          · exact .inr h
          · exact .inl (List.mem_cons_of_mem _ h)
      · rcases List.mem_cons.1 h with h | h
        · exact .inl (by simp [h])
        · rcases ih h with h | h
          · exact .inl (List.mem_cons_of_mem _ h)
          · exact .inr h

/-- A write keeps the canonical form. -/
theorem Memory.wf_writeByte {m : Memory} (h : m.wf) (a : Nat) (v : Byte) : (m.writeByte a v).wf := by
  induction m with
  | nil =>
    unfold Memory.writeByte
    split
    · exact h
    · exact Memory.wf_cons (by simp) (by assumption) h
  | cons d m ih =>
    have ht := Memory.wf_tail h
    have hlt := Memory.wf_head_lt h
    unfold Memory.writeByte
    split
    · next hak =>
      split
      · exact h
      · next hv =>
        refine Memory.wf_cons (fun e he => ?_) hv h
        rcases List.mem_cons.1 he with rfl | he
        · exact hak
        · exact Nat.lt_trans hak (hlt e he)
    · split
      · next hak =>
        split
        · exact ht
        · next hv => exact Memory.wf_cons (fun e he => by subst hak; exact hlt e he) hv ht
      · refine Memory.wf_cons (fun e he => ?_) (Memory.wf_head_listed h) (ih ht)
        rcases Memory.mem_writeByte he with he | rfl
        · exact hlt e he
        · simp only; omega

/-- Read after write, for the byte written and for every other. -/
theorem Memory.readByte_writeByte {m : Memory} (h : m.wf) (a : Nat) (v : Byte) (b : Nat) :
    (m.writeByte a v).readByte b = if b = a then v else m.readByte b := by
  induction m with
  | nil =>
    unfold Memory.writeByte
    split
    · next hv => simp [Memory.readByte, hv]
    · simp [Memory.readByte]
  | cons d m ih =>
    have ht := Memory.wf_tail h
    have hlt := Memory.wf_head_lt h
    unfold Memory.writeByte
    split
    · next hak =>
      split
      · next hv =>
        split
        · next hb =>
          subst hb
          rw [hv]
          refine Memory.readByte_of_notListed fun e he => ?_
          rcases List.mem_cons.1 he with rfl | he
          · simp only; omega
          · have := hlt e he; omega
        · rfl
      · simp [Memory.readByte]
    · split
      · next hak =>
        subst hak
        split
        · next hv =>
          split
          · next hb =>
            subst hb
            rw [hv]
            exact Memory.readByte_of_notListed fun e he => by have := hlt e he; omega
          · next hb => simp [Memory.readByte, hb]
        · simp only [Memory.readByte]
          split <;> rfl
      · next hne hak =>
        simp only [Memory.readByte]
        rw [ih ht]
        split
        · next hb => subst hb; simp [Ne.symm hak]
        · rfl

theorem Memory.below_writeByte {m : Memory} {n : Nat} (h : m.below n) {a : Nat} (ha : a < n) (v : Byte) :
    (m.writeByte a v).below n := fun c hc => by
  rcases Memory.mem_writeByte hc with hc | rfl
  · exact h c hc
  · exact ha

theorem Memory.wf_writeCell {m : Memory} (h : m.wf) (k : Nat) (v : Raw) : (m.writeCell k v).wf :=
  Memory.wf_writeByte (Memory.wf_writeByte h _ _) _ _

theorem Memory.below_writeCell {m : Memory} {n : Nat} (h : m.below (2 * n)) {k : Nat} (hk : k < n) (v : Raw) :
    (m.writeCell k v).below (2 * n) :=
  Memory.below_writeByte (Memory.below_writeByte h (by omega) _) (by omega) _

/-- The frame of a cell write, byte by byte. -/
theorem Memory.readByte_writeCell_other {m : Memory} (h : m.wf) (k : Nat) (v : Raw) {b : Nat} (h0 : b ≠ 2 * k)
    (h1 : b ≠ 2 * k + 1) : (m.writeCell k v).readByte b = m.readByte b := by
  unfold Memory.writeCell
  rw [Memory.readByte_writeByte (Memory.wf_writeByte h _ _), if_neg h1, Memory.readByte_writeByte h, if_neg h0]

theorem Memory.append_extract (v : Raw) : (v.extractLsb' 8 8 ++ v.extractLsb' 0 8 : BitVec (8 + 8)) = v := by
  apply BitVec.eq_of_getLsbD_eq
  intro i hi
  simp only [BitVec.getLsbD_append, BitVec.getLsbD_extractLsb']
  split
  · next h => simp [h]
  · next h =>
    have h8 : i - 8 < 8 := by omega
    have : 8 + (i - 8) = i := by omega
    simp [h8, this]

/-- Read after write, for the cell written and for every other. -/
theorem Memory.readCell_writeCell {m : Memory} (h : m.wf) (k : Nat) (v : Raw) (j : Nat) :
    (m.writeCell k v).readCell j = if j = k then v else m.readCell j := by
  split
  · next hjk =>
    subst hjk
    unfold Memory.readCell Memory.writeCell
    rw [Memory.readByte_writeByte (Memory.wf_writeByte h _ _), if_pos rfl,
      Memory.readByte_writeByte (Memory.wf_writeByte h _ _), if_neg (by omega), Memory.readByte_writeByte h, if_pos rfl]
    exact Memory.append_extract v
  · next hjk =>
    unfold Memory.readCell
    rw [Memory.readByte_writeCell_other h k v (by omega) (by omega),
      Memory.readByte_writeCell_other h k v (by omega) (by omega)]

theorem Memory.mem_ofBytes {bs : List Byte} {base : Nat} {c : Host.Cell} (h : c ∈ Memory.ofBytes base bs) :
    base ≤ c.1 ∧ c.1 < base + bs.length := by
  induction bs generalizing base with
  | nil => simp [Memory.ofBytes] at h
  | cons b bs ih =>
    unfold Memory.ofBytes at h
    split at h
    · have := ih h; simp only [List.length_cons]; omega
    · rcases List.mem_cons.1 h with rfl | h
      · simp
      · have := ih h; simp only [List.length_cons]; omega

theorem Memory.wf_ofBytes (base : Nat) (bs : List Byte) : (Memory.ofBytes base bs).wf := by
  induction bs generalizing base with
  | nil => exact ⟨List.Pairwise.nil, by simp [Memory.ofBytes]⟩
  | cons b bs ih =>
    unfold Memory.ofBytes
    split
    · exact ih _
    · next hb => exact Memory.wf_cons (fun d hd => (Memory.mem_ofBytes hd).1) hb (ih _)

/-- An image's memory reads back the image's bytes, and zero past its end. -/
theorem Memory.readByte_ofBytes (base : Nat) (bs : List Byte) (k : Nat) :
    (Memory.ofBytes base bs).readByte (base + k) = bs.getD k Memory.unlisted := by
  induction bs generalizing base k with
  | nil => simp [Memory.ofBytes, Memory.readByte]
  | cons b bs ih =>
    have hlater (m : Nat) : base + (m + 1) = base + 1 + m := by omega
    unfold Memory.ofBytes
    split
    · next hb =>
      cases k with
      | zero =>
        rw [Memory.readByte_of_notListed fun c hc => by have := (Memory.mem_ofBytes hc).1; omega]
        simp [hb]
      | succ k => rw [hlater k, ih]; simp
    · cases k with
      | zero => simp [Memory.readByte]
      | succ k =>
        have hne : base + (k + 1) ≠ base := by omega
        simp only [Memory.readByte, hne, if_false]
        rw [hlater k, ih]; simp

/-- Equal contents are equal data: two memories in canonical form that read alike are the same list. -/
theorem Memory.ext_of_wf {m m' : Memory} (h : m.wf) (h' : m'.wf) (heq : ∀ a, m.readByte a = m'.readByte a) : m = m' := by
  induction m generalizing m' with
  | nil =>
    cases m' with
    | nil => rfl
    | cons c m' =>
      have := heq c.1
      simp only [Memory.readByte, if_true] at this
      exact absurd this.symm (Memory.wf_head_listed h')
  | cons c m ih =>
    cases m' with
    | nil =>
      have := heq c.1
      simp only [Memory.readByte, if_true] at this
      exact absurd this (Memory.wf_head_listed h)
    | cons c' m' =>
      have hc := heq c.1
      have hc' := heq c'.1
      simp only [Memory.readByte, if_true] at hc hc'
      have hk : c.1 = c'.1 := by
        rcases Nat.lt_trichotomy c.1 c'.1 with hlt | he | hlt
        · rw [if_neg (by omega), Memory.readByte_of_notListed fun d hd => by
            have := Memory.wf_head_lt h' d hd; omega] at hc
          exact absurd hc (Memory.wf_head_listed h)
        · exact he
        · rw [if_neg (by omega), Memory.readByte_of_notListed fun d hd => by
            have := Memory.wf_head_lt h d hd; omega] at hc'
          exact absurd hc'.symm (Memory.wf_head_listed h')
      rw [if_pos hk] at hc
      have hcc : c = c' := Prod.ext hk hc
      subst hcc
      congr 1
      refine ih (Memory.wf_tail h) (Memory.wf_tail h') fun a => ?_
      by_cases ha : a = c.1
      · rw [Memory.readByte_of_notListed fun d hd => by have := Memory.wf_head_lt h d hd; omega,
          Memory.readByte_of_notListed fun d hd => by have := Memory.wf_head_lt h' d hd; omega]
      · simpa [Memory.readByte, ha] using heq a

/-- Memory right after reset is in canonical form. -/
theorem Memory.wf_reset : State.reset.mem.wf := by decide

end Sys2Proof.Machine
end

