-- ==== Sys2Proof/Laws/Ops.lean ====
section
/-! SUPPORT. One lemma for each thing a named operation can do. -/

namespace Sys2Proof.Machine

theorem zext_toNat (v : Word) : (zext v).toNat = v.toNat := by
  have := v.isLt
  simp only [zext, BitVec.toNat_setWidth]
  omega

/-- A 15-bit value survives the masked register write (R22). -/
@[simp] theorem setWidth_zext (v : Word) : (zext v).setWidth 15 = v := by
  apply BitVec.eq_of_toNat_eq
  have := v.isLt
  rw [BitVec.toNat_setWidth, zext_toNat]
  omega

/-- Read after a register write: `v[14:0]` in the register written, every other register as before (R22). -/
theorem State.readReg_writeReg (s : State) (i j : RegIdx) (v : Raw) :
    (s.writeReg i v).readReg j = if i = j then v.setWidth 15 else s.readReg j := by
  simp [State.readReg, Vector.getElem_set, Fin.ext_iff]

theorem State.memRead_eq_some {s : State} {a : Nat} {w : Raw} :
    s.memRead a = some w ↔ a < s.cfg.memWords ∧ s.mem.readCell a = w := by
  simp only [State.memRead]
  split <;> simp_all

theorem State.memRead_eq_none {s : State} {a : Nat} : s.memRead a = none ↔ s.cfg.memWords ≤ a := by
  simp only [State.memRead]
  split <;> simp_all

/-- A read depends on MEM_WORDS and memory alone. -/
theorem State.memRead_congr {s t : State} (hc : t.cfg = s.cfg) (hm : t.mem = s.mem) (a : Nat) :
    t.memRead a = s.memRead a := by
  simp only [State.memRead, hc, hm]

/-- Read after a memory write (R42, R43). -/
theorem State.memRead_memWrite {s : State} (h : s.mem.wf) (a b : Nat) (v : Raw) :
    (s.memWrite a v).memRead b = if b < s.cfg.memWords then some (if b = a then v else s.mem.readCell b) else none := by
  simp only [State.memRead, State.memWrite, Memory.readCell_writeCell h]

theorem State.memReadMany_eq_some {s : State} {a n : Nat} {ws : List Raw} :
    s.memReadMany a n = some ws ↔ ws.length = n ∧ ∀ k (hk : k < ws.length), s.memRead (a + k) = some ws[k] := by
  induction n generalizing a ws with
  | zero =>
    cases ws <;> simp [State.memReadMany]
  | succ n ih =>
    cases ws with
    | nil =>
      unfold State.memReadMany
      split <;> simp
    | cons w ws =>
      have hstep : s.memReadMany a (n + 1) = some (w :: ws) ↔
          s.memRead a = some w ∧ s.memReadMany (a + 1) n = some ws := by
        conv_lhs => unfold State.memReadMany
        cases s.memRead a <;> cases s.memReadMany (a + 1) n <;> simp
      rw [hstep, ih]
      constructor
      · rintro ⟨h0, hl, hk⟩
        refine ⟨by simp [hl], fun k hk' => ?_⟩
        cases k with
        | zero => simpa using h0
        | succ k =>
          have := hk k (by simpa using hk')
          rw [show a + (k + 1) = a + 1 + k by omega, this]; simp
      · rintro ⟨hl, hk⟩
        refine ⟨hk 0 (Nat.succ_pos _), by simpa using hl, fun k hk' => ?_⟩
        have := hk (k + 1) (by simpa using hk')
        rw [show a + 1 + k = a + (k + 1) by omega, this]; simp

/-- A run of cells cannot be read exactly when one of them does not exist (R75). -/
theorem State.memReadMany_eq_none {s : State} {a n : Nat} :
    s.memReadMany a n = none ↔ ∃ k, k < n ∧ s.cfg.memWords ≤ a + k := by
  induction n generalizing a with
  | zero => simp [State.memReadMany]
  | succ n ih =>
    have hstep : s.memReadMany a (n + 1) = none ↔ s.memRead a = none ∨ s.memReadMany (a + 1) n = none := by
      conv_lhs => unfold State.memReadMany
      cases s.memRead a <;> cases s.memReadMany (a + 1) n <;> simp
    rw [hstep, ih, State.memRead_eq_none]
    constructor
    · rintro (h | ⟨k, hk, h⟩)
      · exact ⟨0, by omega, by omega⟩
      · exact ⟨k + 1, by omega, by omega⟩
    · rintro ⟨k, hk, h⟩
      cases k with
      | zero => exact .inl h
      | succ k => exact .inr ⟨k, by omega, by omega⟩

/-- The IN channel's answer, case by case (R112). -/
theorem State.receive_eq_byte {s : State} {c : Byte} : s.receive = .byte c ↔ ∃ rest, s.input = c :: rest := by
  unfold State.receive
  split
  · next h => simp [h]
  · next h => split <;> simp [h]

theorem State.receive_eq_endOfInput {s : State} :
    s.receive = .endOfInput ↔ s.input = [] ∧ s.inputClosed = true := by
  unfold State.receive
  split
  · next h => simp [h]
  · next h => split <;> simp_all

theorem State.receive_eq_notYet {s : State} : s.receive = .notYet ↔ s.input = [] ∧ s.inputClosed = false := by
  unfold State.receive
  split
  · next h => simp [h]
  · next h => split <;> simp_all

theorem State.top_eq_some {s : State} {e : Raw} : s.top = some e ↔ s.stack = e :: s.stack.tail := by
  unfold State.top
  cases s.stack <;> simp

theorem State.top_eq_none {s : State} : s.top = none ↔ s.stack = [] := by
  unfold State.top
  cases s.stack <;> simp

theorem State.stackFull_iff {s : State} : s.stackFull = true ↔ s.cfg.stackCap = some s.stack.length := by
  simp [State.stackFull]

end Sys2Proof.Machine
end

