-- ==== Sys2Proof/Laws/Operands.lean ====
section
/-! SUPPORT. The operand resolver and the shapes over it: when they resolve, and everything they can answer. -/

namespace Sys2Proof.Machine

/-- A source operand resolves exactly when it fits the role (R58). -/
theorem resolveSrc_isSome (s : State) (a : Operand) : (resolveSrc s a).isSome = a.fits .source := by
  cases a <;> rfl

/-- A destination operand resolves exactly when it fits the role (R59). -/
theorem resolveDst_isSome (a : Operand) : (resolveDst a).isSome = a.fits .destination := by
  cases a <;> rfl

theorem resolveDst_eq_some {a : Operand} {i : RegIdx} : resolveDst a = some i ↔ a = .register i := by
  cases a <;> simp [resolveDst]

theorem withSource_of_some {a : Operand} {s : State} {v : Word} (h : resolveSrc s a = some v) (k : Word → Result) :
    withSource a s k = k v := by
  simp only [withSource, h]

theorem withSource_of_none {a : Operand} {s : State} (h : resolveSrc s a = none) (k : Word → Result) :
    withSource a s k = .next (s.raise .invalidOperand) := by
  simp only [withSource, h]

theorem withDest_of_some {a : Operand} {i : RegIdx} (h : resolveDst a = some i) (s : State) (k : RegIdx → Result) :
    withDest a s k = k i := by
  simp only [withDest, h]

theorem withDest_of_none {a : Operand} (h : resolveDst a = none) (s : State) (k : RegIdx → Result) :
    withDest a s k = .next (s.raise .invalidOperand) := by
  simp only [withDest, h]

/-- Everything a source operand can lead to. -/
theorem withSource_next {a : Operand} {s t : State} {k : Word → Result} (h : withSource a s k = .next t) :
    (∃ v, resolveSrc s a = some v ∧ k v = .next t) ∨ (resolveSrc s a = none ∧ t = s.raise .invalidOperand) := by
  cases hr : resolveSrc s a with
  | some v => exact .inl ⟨v, rfl, by rwa [withSource_of_some hr] at h⟩
  | none =>
    rw [withSource_of_none hr] at h
    exact .inr ⟨rfl, by injection h with h; exact h.symm⟩

/-- Everything a destination operand can lead to. -/
theorem withDest_next {a : Operand} {s t : State} {k : RegIdx → Result} (h : withDest a s k = .next t) :
    (∃ i, a = .register i ∧ k i = .next t) ∨ (resolveDst a = none ∧ t = s.raise .invalidOperand) := by
  cases hr : resolveDst a with
  | some i => exact .inl ⟨i, resolveDst_eq_some.1 hr, by rwa [withDest_of_some hr] at h⟩
  | none =>
    rw [withDest_of_none hr] at h
    exact .inr ⟨rfl, by injection h with h; exact h.symm⟩

theorem commitReg_eq (s : State) (i : RegIdx) (v : Raw) (n : Nat) :
    commitReg s i v n =
      .next { s with regs := s.regs.set i (v.setWidth 15), pc := s.pc + BitVec.ofNat 16 (1 + n) } := rfl

/-- Everything an instruction of format F3DSS without a check of its own can do. -/
theorem binaryOp_next {f : Word → Word → Word} {a b c : Operand} {s t : State} (h : binaryOp f a b c s = .next t) :
    (∃ i vb vc, a = .register i ∧ resolveSrc s b = some vb ∧ resolveSrc s c = some vc ∧
      t = { s with regs := s.regs.set i (f vb vc), pc := s.pc + 4 }) ∨ t = s.raise .invalidOperand := by
  rcases withDest_next h with ⟨i, ha, h⟩ | ⟨-, h⟩
  · rcases withSource_next h with ⟨vb, hb, h⟩ | ⟨-, h⟩
    · rcases withSource_next h with ⟨vc, hc, h⟩ | ⟨-, h⟩
      · refine .inl ⟨i, vb, vc, ha, hb, hc, ?_⟩
        rw [commitReg_eq] at h
        injection h with h
        simpa using h.symm
      · exact .inr h
    · exact .inr h
  · exact .inr h

/-- Everything an instruction of format F2DS without a check of its own can do. -/
theorem unaryOp_next {f : Word → Word} {a b : Operand} {s t : State} (h : unaryOp f a b s = .next t) :
    (∃ i vb, a = .register i ∧ resolveSrc s b = some vb ∧
      t = { s with regs := s.regs.set i (f vb), pc := s.pc + 3 }) ∨ t = s.raise .invalidOperand := by
  rcases withDest_next h with ⟨i, ha, h⟩ | ⟨-, h⟩
  · rcases withSource_next h with ⟨vb, hb, h⟩ | ⟨-, h⟩
    · refine .inl ⟨i, vb, ha, hb, ?_⟩
      rw [commitReg_eq] at h
      injection h with h
      simpa using h.symm
    · exact .inr h
  · exact .inr h

end Sys2Proof.Machine
end

