-- ==== Sys2Proof/Laws/Step.lean ====
section
/-! SUPPORT. What the fetch and the step can do, said once. -/

namespace Sys2Proof.Machine

theorem fetch_of_noOpcode {s : State} (h : s.cfg.memWords ≤ s.pc.toNat) : fetch s = .error .outOfBounds := by
  simp only [fetch, State.memRead_eq_none.2 h]

theorem fetch_of_unknown {s : State} {op : Raw} (h : s.memRead s.pc.toNat = some op) (hop : 22 ≤ op.toNat) :
    fetch s = .error .unknownOpcode := by
  simp only [fetch, h, arity_eq_none.2 hop]

theorem fetch_of_missing {s : State} {op : Raw} {n k : Nat} (h : s.memRead s.pc.toNat = some op) (hn : arity op = some n)
    (hk : k < n) (hm : s.cfg.memWords ≤ s.pc.toNat + 1 + k) : fetch s = .error .outOfBounds := by
  simp only [fetch, h, hn, State.memReadMany_eq_none.2 ⟨k, hk, hm⟩]

/-- A fetch answers an instruction exactly when the cells at pc hold its opcode word and the operand words its arity asks for. -/
theorem fetch_eq_ok {s : State} {i : Instr} (h : fetch s = .ok i) :
    ∃ op n ws, s.memRead s.pc.toNat = some op ∧ arity op = some n ∧ s.memReadMany (s.pc.toNat + 1) n = some ws ∧
      decode (op :: ws) = .ok (i, []) := by
  unfold fetch at h
  split at h
  · cases h
  · next op hop =>
    split at h
    · cases h
    · next n hn =>
      split at h
      · cases h
      · next ws hws =>
        obtain ⟨j, hj⟩ := decode_of_arity hn (State.memReadMany_eq_some.1 hws).1
        rw [hj] at h
        injection h with h
        subst h
        exact ⟨op, n, ws, hop, hn, hws, hj⟩

theorem fetch_of_words {s : State} {op : Raw} {n : Nat} {ws : List Raw} {i : Instr} (hop : s.memRead s.pc.toNat = some op)
    (hn : arity op = some n) (hws : s.memReadMany (s.pc.toNat + 1) n = some ws) (hd : decode (op :: ws) = .ok (i, [])) :
    fetch s = .ok i := by
  simp only [fetch, hop, hn, hws, hd]

theorem step_of_fetch {s : State} {i : Instr} (hr : s.status = .running) (h : fetch s = .ok i) : step s = exec i s := by
  simp only [step, hr, h]

theorem step_of_fetchFault {s : State} {k : FaultKind} (hr : s.status = .running) (h : fetch s = .error k) :
    step s = .next (s.raise k) := by
  simp only [step, hr, h]

/-- Everything a step that answers a next state can be: a fetch fault taken, or the fetched instruction run. -/
theorem step_next {s t : State} (h : step s = .next t) :
    s.status = .running ∧ ((∃ k, fetch s = .error k ∧ t = s.raise k) ∨ ∃ i, fetch s = .ok i ∧ exec i s = .next t) := by
  unfold step at h
  split at h
  · cases h
  · cases h
  · next hr =>
    refine ⟨hr, ?_⟩
    split at h
    · next k hk => injection h with h; exact .inl ⟨k, hk, h.symm⟩
    · next i hi => exact .inr ⟨i, hi, h⟩

theorem Memory.wf_writeCells {m : Memory} (h : m.wf) (k : Nat) (ws : List Raw) : (Memory.writeCells m k ws).wf := by
  induction ws generalizing m k with
  | nil => exact h
  | cons w ws ih => exact ih (Memory.wf_writeCell h k w) (k + 1)

/-- Words written to successive cells read back, and cells outside them read as before. -/
theorem Memory.readCell_writeCells {m : Memory} (h : m.wf) (k : Nat) (ws : List Raw) (j : Nat) :
    (Memory.writeCells m k ws).readCell j = if k ≤ j then ws.getD (j - k) (m.readCell j) else m.readCell j := by
  induction ws generalizing m k with
  | nil => simp [Memory.writeCells]
  | cons w ws ih =>
    rw [Memory.writeCells, ih (Memory.wf_writeCell h k w) (k + 1), Memory.readCell_writeCell h]
    rcases Nat.lt_trichotomy j k with hlt | rfl | hgt
    · rw [if_neg (by omega), if_neg (by omega), if_neg (by omega)]
    · simp
    · obtain ⟨d, rfl⟩ : ∃ d, j = k + 1 + d := ⟨j - (k + 1), by omega⟩
      rw [if_pos (show k + 1 ≤ k + 1 + d by omega), if_neg (show ¬ k + 1 + d = k by omega),
        if_pos (show k ≤ k + 1 + d by omega), show k + 1 + d - (k + 1) = d by omega,
        show k + 1 + d - k = d + 1 by omega, List.getD_cons_succ]

/-- The four words placed for the next fetch are what the cells at pc read as. -/
theorem State.memRead_withFetchWord {s : State} (h : s.mem.wf) (nbits w : Nat) {k : Nat} (hk : k < 4) :
    (s.withFetchWord nbits w).memRead (s.pc.toNat + k) = some ((tableWords nbits w).getD k 0) := by
  refine State.memRead_eq_some.2 ⟨by simp only [State.withFetchWord]; omega, ?_⟩
  simp only [State.withFetchWord, Memory.readCell_writeCells h]
  rw [if_pos (by omega), show s.pc.toNat + k - s.pc.toNat = k by omega]
  have hl : k < (tableWords nbits w).length := by simpa [tableWords, wordsOfNat] using hk
  simp only [List.getD_eq_getElem?_getD, List.getElem?_eq_getElem hl, Option.getD_some]

/-- Placing an instruction where the step fetches keeps the canonical form. -/
theorem State.wf_withFetchWord {s : State} (h : s.mem.wf) (nbits w : Nat) : (s.withFetchWord nbits w).mem.wf :=
  Memory.wf_writeCells h _ _

end Sys2Proof.Machine
end

