-- ==== Sys2Proof/Laws/Exec.lean ====
section
/-! SUPPORT. Everything an instruction can do, said once: the inversion of `exec`, by the kind of effect. Claims about all
instructions split on `Effect` instead of unfolding the meanings. -/

namespace Sys2Proof.Machine

/-- The instructions that write one register and do nothing else. -/
def isRegisterForm : Instr → Bool
  | .set _ _ | .eq _ _ _ | .gt _ _ _ | .add _ _ _ | .mult _ _ _ | .mod _ _ _ | .and _ _ _ | .or _ _ _ | .not _ _
  | .rmem _ _ => true
  | .halt | .push _ | .pop _ | .jmp _ | .jt _ _ | .jf _ _ | .wmem _ _ | .call _ | .ret | .out _ | .inp _ | .noop => false

/-- The branches that set a target, with the operand that gives it. -/
inductive Jumps (s : State) : Instr → Operand → Prop where
  | jmp (a : Operand) : Jumps s (.jmp a) a
  | jt {a : Operand} (b : Operand) {c : Word} (ha : resolveSrc s a = some c) (hc : c ≠ 0) : Jumps s (.jt a b) b
  | jf {a : Operand} (b : Operand) (ha : resolveSrc s a = some 0) : Jumps s (.jf a b) b

/-- The branches that fall through. -/
inductive NotTaken (s : State) : Instr → Prop where
  | jt {a : Operand} (b : Operand) (ha : resolveSrc s a = some 0) : NotTaken s (.jt a b)
  | jf {a : Operand} (b : Operand) {c : Word} (ha : resolveSrc s a = some c) (hc : c ≠ 0) : NotTaken s (.jf a b)

/-- `Effect s i t`: running `i` in `s` can lead to `t`. -/
inductive Effect (s : State) : Instr → State → Prop where
  /-- A fault: the status alone changes (R127). -/
  | raised (i : Instr) (k : FaultKind) : Effect s i (s.raise k)
  | halted : Effect s .halt s.halt
  | advanced : Effect s .noop (s.fallThrough 0)
  | wroteRegister {i : Instr} (j : RegIdx) (v : Word) (hi : isRegisterForm i = true)
      (hj : i.operands.head? = some (.register j)) :
      Effect s i { s with regs := s.regs.set j v, pc := s.nextIp i.operands.length }
  | pushed (a : Operand) {v : Word} (ha : resolveSrc s a = some v) (hf : s.cfg.stackCap ≠ some s.stack.length) :
      Effect s (.push a) ((s.pushEntry (zext v)).fallThrough 1)
  | popped (j : RegIdx) {e : Raw} (he : s.stack = e :: s.stack.tail) :
      Effect s (.pop (.register j)) ((s.dropTop.writeReg j e).fallThrough 1)
  | jumped {i : Instr} {b : Operand} {v : Word} (hi : Jumps s i b) (hb : resolveSrc s b = some v) :
      Effect s i (s.jumpTo (zext v))
  | notTaken {i : Instr} (hi : NotTaken s i) : Effect s i (s.fallThrough 2)
  | stored {a b : Operand} {addr v : Word} (ha : resolveSrc s a = some addr) (hb : resolveSrc s b = some v)
      (hlt : addr.toNat < s.cfg.memWords) : Effect s (.wmem a b) ((s.memWrite addr.toNat (zext v)).fallThrough 2)
  | called (a : Operand) {v : Word} (ha : resolveSrc s a = some v) (hf : s.cfg.stackCap ≠ some s.stack.length) :
      Effect s (.call a) ((s.pushEntry (s.nextIp 1)).jumpTo (zext v))
  | returned {e : Raw} (he : s.stack = e :: s.stack.tail) : Effect s .ret (s.dropTop.jumpTo e)
  | emitted (a : Operand) {v : Word} (ha : resolveSrc s a = some v) :
      Effect s (.out a) ((s.emit (v.extractLsb' 0 8)).fallThrough 1)
  | waited (j : RegIdx) (hr : s.receive = .notYet) : Effect s (.inp (.register j)) s
  | received (j : RegIdx) {c : Byte} (hc : s.input = c :: s.input.tail) :
      Effect s (.inp (.register j)) ((s.consume.writeReg j (c.setWidth 16)).fallThrough 1)

/-- A meaning that only raises or goes on with a resolved source is settled by what follows the source. -/
theorem Effect.ofSource {i : Instr} {a : Operand} {s t : State} {k : Word → Result} (h : withSource a s k = .next t)
    (hk : ∀ v, resolveSrc s a = some v → k v = .next t → Effect s i t) : Effect s i t := by
  rcases withSource_next h with ⟨v, hv, h⟩ | ⟨-, rfl⟩
  · exact hk v hv h
  · exact .raised i _

theorem Effect.ofDest {i : Instr} {a : Operand} {s t : State} {k : RegIdx → Result} (h : withDest a s k = .next t)
    (hk : ∀ j, a = .register j → k j = .next t → Effect s i t) : Effect s i t := by
  rcases withDest_next h with ⟨j, hj, h⟩ | ⟨-, rfl⟩
  · exact hk j hj h
  · exact .raised i _

/-- An instruction that commits `v` to the register its first operand names. -/
theorem Effect.ofCommit {i : Instr} {s t : State} {j : RegIdx} {v : Raw} {n : Nat} (h : commitReg s j v n = .next t)
    (hi : isRegisterForm i = true) (hj : i.operands.head? = some (.register j)) (hn : i.operands.length = n) :
    Effect s i t := by
  subst hn
  injection h with h
  subst h
  exact .wroteRegister j (v.setWidth 15) hi hj

theorem Effect.ofBinary {i : Instr} {f : Word → Word → Word} {a b c : Operand} {s t : State}
    (h : binaryOp f a b c s = .next t) (hi : isRegisterForm i = true) (ho : i.operands = [a, b, c]) : Effect s i t :=
  Effect.ofDest h fun j hj h => Effect.ofSource h fun _ _ h => Effect.ofSource h fun _ _ h =>
    Effect.ofCommit h hi (by simp [ho, hj]) (by simp [ho])

theorem Effect.ofUnary {i : Instr} {f : Word → Word} {a b : Operand} {s t : State}
    (h : unaryOp f a b s = .next t) (hi : isRegisterForm i = true) (ho : i.operands = [a, b]) : Effect s i t :=
  Effect.ofDest h fun j hj h => Effect.ofSource h fun _ _ h => Effect.ofCommit h hi (by simp [ho, hj]) (by simp [ho])

/-- A next state that is already written out. -/
theorem Effect.ofNext {i : Instr} {s t u : State} (h : (.next u : Result) = .next t) (hu : Effect s i u) : Effect s i t := by
  injection h with h
  exact h ▸ hu

theorem isTrue_iff {c : Word} : isTrue c = true ↔ c ≠ 0 := by
  simp only [isTrue, decide_eq_true_eq]
  exact not_congr ⟨fun h => BitVec.eq_of_toNat_eq h, fun h => h ▸ rfl⟩

/-- What an instruction answers is one of the effects. -/
theorem exec_effect {i : Instr} {s t : State} (h : exec i s = .next t) : Effect s i t := by
  cases i with
  | halt => exact .ofNext h .halted
  | noop => exact .ofNext h .advanced
  | set a b => exact .ofUnary h rfl rfl
  | not a b => exact .ofUnary h rfl rfl
  | eq a b c => exact .ofBinary h rfl rfl
  | gt a b c => exact .ofBinary h rfl rfl
  | add a b c => exact .ofBinary h rfl rfl
  | mult a b c => exact .ofBinary h rfl rfl
  | and a b c => exact .ofBinary h rfl rfl
  | or a b c => exact .ofBinary h rfl rfl
  | mod a b c =>
    refine .ofDest h fun j hj h => .ofSource h fun vb _ h => .ofSource h fun vc _ h => ?_
    split at h
    · exact .ofNext h (.raised _ _)
    · exact .ofCommit h rfl (by simp [Instr.operands, hj]) rfl
  | rmem a b =>
    refine .ofDest h fun j hj h => .ofSource h fun addr _ h => ?_
    split at h
    · exact .ofNext h (.raised _ _)
    · exact .ofCommit h rfl (by simp [Instr.operands, hj]) rfl
  | push a =>
    refine .ofSource h fun v hv h => ?_
    split at h
    · exact .ofNext h (.raised _ _)
    · next hf => exact .ofNext h (.pushed a hv fun e => hf (State.stackFull_iff.2 e))
  | call a =>
    refine .ofSource h fun v hv h => ?_
    split at h
    · exact .ofNext h (.raised _ _)
    · next hf => exact .ofNext h (.called a hv fun e => hf (State.stackFull_iff.2 e))
  | pop a =>
    refine .ofDest h fun j hj h' => ?_
    subst hj
    split at h'
    · exact .ofNext h' (.raised _ _)
    · next e he => exact .ofNext h' (.popped j (State.top_eq_some.1 he))
  | ret =>
    simp only [exec, execRet] at h
    split at h
    · exact .ofNext h (.raised _ _)
    · next e he => exact .ofNext h (.returned (State.top_eq_some.1 he))
  | jmp a => exact .ofSource h fun v hv h => .ofNext h (.jumped (.jmp a) hv)
  | jt a b =>
    refine .ofSource h fun c hc h => .ofSource h fun v hv h => ?_
    split at h
    · next ht => exact .ofNext h (.jumped (.jt b hc (isTrue_iff.1 ht)) hv)
    · next ht =>
      have hz : c = 0 := by_contra fun hne => ht (isTrue_iff.2 hne)
      exact .ofNext h (.notTaken (.jt b (hz ▸ hc)))
  | jf a b =>
    refine .ofSource h fun c hc h => .ofSource h fun v hv h => ?_
    split at h
    · next ht => exact .ofNext h (.notTaken (.jf b hc (isTrue_iff.1 ht)))
    · next ht =>
      have hz : c = 0 := by_contra fun hne => ht (isTrue_iff.2 hne)
      exact .ofNext h (.jumped (.jf b (hz ▸ hc)) hv)
  | wmem a b =>
    refine .ofSource h fun addr ha h => .ofSource h fun v hb h => ?_
    split at h
    · next hlt => exact .ofNext h (.stored ha hb hlt)
    · exact .ofNext h (.raised _ _)
  | out a => exact .ofSource h fun v hv h => .ofNext h (.emitted a hv)
  | inp a =>
    refine .ofDest h fun j hj h' => ?_
    subst hj
    split at h'
    · next hr => exact .ofNext h' (.waited j hr)
    · exact .ofNext h' (.raised _ _)
    · next c hr =>
      obtain ⟨rest, hrest⟩ := State.receive_eq_byte.1 hr
      exact .ofNext h' (.received j (by simp [hrest]))

end Sys2Proof.Machine
end

