-- ==== Sys2Proof/Laws/PerInstr.lean ====
section
/-! SUPPORT. One family of facts about the instructions as syntax: the shape of each one's encoding. -/

namespace Sys2Proof.Laws.EncodingShape

/-- The encoding is one opcode word and as many operand words as the arity table says (R55, R62), and each operand has a role. -/
def Statement (i : Instr) : Prop :=
  (encode i).length = 1 + i.operands.length ∧ arity i.opcode = some i.operands.length ∧ i.roles.length = i.operands.length

theorem halt : Statement .halt := ⟨rfl, rfl, rfl⟩

theorem set (a b : Operand) : Statement (.set a b) := ⟨rfl, rfl, rfl⟩

theorem push (a : Operand) : Statement (.push a) := ⟨rfl, rfl, rfl⟩

theorem pop (a : Operand) : Statement (.pop a) := ⟨rfl, rfl, rfl⟩

theorem eq (a b c : Operand) : Statement (.eq a b c) := ⟨rfl, rfl, rfl⟩

theorem gt (a b c : Operand) : Statement (.gt a b c) := ⟨rfl, rfl, rfl⟩

theorem jmp (a : Operand) : Statement (.jmp a) := ⟨rfl, rfl, rfl⟩

theorem jt (a b : Operand) : Statement (.jt a b) := ⟨rfl, rfl, rfl⟩

theorem jf (a b : Operand) : Statement (.jf a b) := ⟨rfl, rfl, rfl⟩

theorem add (a b c : Operand) : Statement (.add a b c) := ⟨rfl, rfl, rfl⟩

theorem mult (a b c : Operand) : Statement (.mult a b c) := ⟨rfl, rfl, rfl⟩

theorem mod (a b c : Operand) : Statement (.mod a b c) := ⟨rfl, rfl, rfl⟩

theorem and (a b c : Operand) : Statement (.and a b c) := ⟨rfl, rfl, rfl⟩

theorem or (a b c : Operand) : Statement (.or a b c) := ⟨rfl, rfl, rfl⟩

theorem not (a b : Operand) : Statement (.not a b) := ⟨rfl, rfl, rfl⟩

theorem rmem (a b : Operand) : Statement (.rmem a b) := ⟨rfl, rfl, rfl⟩

theorem wmem (a b : Operand) : Statement (.wmem a b) := ⟨rfl, rfl, rfl⟩

theorem call (a : Operand) : Statement (.call a) := ⟨rfl, rfl, rfl⟩

theorem ret : Statement .ret := ⟨rfl, rfl, rfl⟩

theorem out (a : Operand) : Statement (.out a) := ⟨rfl, rfl, rfl⟩

theorem inp (a : Operand) : Statement (.inp a) := ⟨rfl, rfl, rfl⟩

theorem noop : Statement .noop := ⟨rfl, rfl, rfl⟩

end Sys2Proof.Laws.EncodingShape
end

