-- ==== Sys2Proof/Tests/Slice0.lean ====
section
/-! SUPPORT. Small tests. Every expected value comes from spec/95_test_vectors.md or an instruction's own rule, named beside
it. The witnesses at the end meet the hypotheses of the statements in Certificates/Slice0/Obligations.lean. -/

namespace Sys2Proof.Tests

open Sys2Proof.Machine

/-- The bytes of an image given as words, low byte first (R45). -/
def bytesOf (ws : List Raw) : List Byte := ws.flatMap fun w => [w.extractLsb' 0 8, w.extractLsb' 8 8]

/-- A freshly launched state with the words as its memory, the input open and empty, the stack unbounded. -/
def boot (ws : List Raw) : State :=
  { State.reset with cfg := { memWords := ws.length, stackCap := none }, mem := Memory.ofBytes 0 (bytesOf ws) }

/-- `boot` with one register preloaded. -/
def bootReg (ws : List Raw) (i : RegIdx) (v : Word) : State := { boot ws with regs := (boot ws).regs.set i v }

/-- `boot` with a stack, top first. -/
def bootStack (ws : List Raw) (stack : List Raw) : State := { boot ws with stack := stack }

/-- `boot` with bytes ready on the IN channel, and closed or not. -/
def bootInput (ws : List Raw) (bytes : List Byte) (closed : Bool) : State :=
  { boot ws with input := bytes, inputClosed := closed }

/-- The state after one step. -/
def after (s : State) : Option State :=
  match step s with
  | .next t => some t
  | .fault _ => none
  | .refused _ => none

/-- A register and pc after one step. -/
def regPc (s : State) (i : RegIdx) : Option (Word × Raw) := (after s).map fun t => (t.readReg i, t.pc)

/-- Status and pc after one step. -/
def statusPc (s : State) : Option (Status × Raw) := (after s).map fun t => (t.status, t.pc)

/-- Stack and pc after one step. -/
def stackPc (s : State) : Option (List Raw × Raw) := (after s).map fun t => (t.stack, t.pc)

/-! ### Well-formedness: an ill-formed term for each check -/

theorem test_wellFormed_refuses_small_invalid : (Instr.push (.invalid 32775)).wellFormed = false := by decide
theorem test_wellFormed_refuses_last_operand : (Instr.add (.register 0) (.literal 1) (.invalid 5)).wellFormed = false := by decide
theorem test_wellFormed_accepts_invalid_words : (Instr.push (.invalid 32776)).wellFormed = true := by decide
theorem test_legal_refuses_literal_destination : (Instr.set (.literal 5) (.literal 7)).legal = false := by decide
theorem test_legal_refuses_invalid_destination : (Instr.pop (.invalid 32776)).legal = false := by decide
theorem test_legal_refuses_invalid_source : (Instr.jt (.literal 0) (.invalid 40000)).legal = false := by decide
theorem test_legal_accepts_literal_address : (Instr.wmem (.literal 7) (.literal 33)).legal = true := by decide

/-! ### Decoding: one word sequence per instruction, written out from R56, R57 and R64 -/

theorem test_decode_halt : decode [0] = .ok (.halt, []) := by decide
theorem test_decode_set : decode [1, 32771, 1234] = .ok (.set (.register 3) (.literal 1234), []) := by decide
theorem test_decode_push : decode [2, 32768] = .ok (.push (.register 0), []) := by decide
theorem test_decode_pop : decode [3, 32769] = .ok (.pop (.register 1), []) := by decide
theorem test_decode_eq : decode [4, 32768, 7, 7] = .ok (.eq (.register 0) (.literal 7) (.literal 7), []) := by decide
theorem test_decode_gt : decode [5, 32770, 3, 2] = .ok (.gt (.register 2) (.literal 3) (.literal 2), []) := by decide
theorem test_decode_jmp : decode [6, 32767] = .ok (.jmp (.literal 32767), []) := by decide
theorem test_decode_jt : decode [7, 32768, 3] = .ok (.jt (.register 0) (.literal 3), []) := by decide
theorem test_decode_jf : decode [8, 0, 32775] = .ok (.jf (.literal 0) (.register 7), []) := by decide
theorem test_decode_add : decode [9, 32768, 32769, 4] = .ok (.add (.register 0) (.register 1) (.literal 4), []) := by decide
theorem test_decode_mult : decode [10, 32769, 32768, 32774] = .ok (.mult (.register 1) (.register 0) (.register 6), []) := by decide
theorem test_decode_mod : decode [11, 32768, 10, 3] = .ok (.mod (.register 0) (.literal 10) (.literal 3), []) := by decide
theorem test_decode_and : decode [12, 32772, 32771, 255] = .ok (.and (.register 4) (.register 3) (.literal 255), []) := by decide
theorem test_decode_or : decode [13, 32773, 32772, 256] = .ok (.or (.register 5) (.register 4) (.literal 256), []) := by decide
theorem test_decode_not : decode [14, 32771, 32770] = .ok (.not (.register 3) (.register 2), []) := by decide
theorem test_decode_rmem : decode [15, 32770, 7] = .ok (.rmem (.register 2) (.literal 7), []) := by decide
theorem test_decode_wmem : decode [16, 7, 33] = .ok (.wmem (.literal 7) (.literal 33), []) := by decide
theorem test_decode_call : decode [17, 32776] = .ok (.call (.invalid 32776), []) := by decide
theorem test_decode_ret : decode [18] = .ok (.ret, []) := by decide
theorem test_decode_out : decode [19, 72] = .ok (.out (.literal 72), []) := by decide
theorem test_decode_inp : decode [20, 32772] = .ok (.inp (.register 4), []) := by decide
theorem test_decode_noop : decode [21] = .ok (.noop, []) := by decide
theorem test_decode_unknown : decode [32768, 0, 0, 0] = .error (.unknownOpcode 32768) := by decide
theorem test_decode_short : decode [9, 32768, 40000] = .error .missingOperand := by decide
theorem test_decode_nothing : decode [] = .error .noWord := by decide
theorem test_decodeTableWord_second_word : decodeTableWord 64 0x0004800180000009 =
    some (.add (.register 0) (.register 1) (.literal 4)) := by decide
theorem test_decodeTableWord_opcode_only : decodeTableWord 16 1 = some (.set (.literal 0) (.literal 0)) := by decide

/-! ### The step (95_test_vectors.md 2.2) -/

theorem test_step_empty : statusPc (boot []) = some (.faulted .outOfBounds 0, 0) := by decide
theorem test_step_unknown : statusPc (boot [22]) = some (.faulted .unknownOpcode 0, 0) := by decide
theorem test_step_register_word_is_no_opcode : statusPc (boot [32768]) = some (.faulted .unknownOpcode 0, 0) := by decide
theorem test_step_missing_operand_first : statusPc (boot [9, 32768, 40000]) = some (.faulted .outOfBounds 0, 0) := by decide
theorem test_step_past_the_end : statusPc { boot [21] with pc := 1 } = some (.faulted .outOfBounds 1, 1) := by decide
theorem test_step_terminal : after { boot [21] with status := .halted } = none := by decide

/-! ### One step of each instruction (95_test_vectors.md 2.3 to 2.9 and the rules' examples) -/

theorem test_halt : statusPc (boot [0]) = some (.halted, 0) := by decide
theorem test_noop : statusPc (boot [21, 0]) = some (.running, 1) := by decide
theorem test_set : regPc (boot [1, 32771, 1234, 0]) 3 = some (1234, 3) := by decide
theorem test_set_literal_destination : statusPc (boot [1, 5, 7]) = some (.faulted .invalidOperand 0, 0) := by decide
theorem test_push_register : stackPc (bootReg [2, 32768, 0] 0 9) = some ([9], 2) := by decide
theorem test_push_full : statusPc { bootStack [2, 2, 0] [1] with cfg := { memWords := 3, stackCap := some 1 } } =
    some (.faulted .stackOverflow 0, 0) := by decide
theorem test_pop : (after (bootStack [3, 32769, 0] [7, 4])).map (fun t => (t.readReg 1, t.stack)) = some (7, [4]) := by decide
theorem test_pop_masks_return_address : regPc (bootStack [3, 32768, 0] [32768]) 0 = some (0, 2) := by decide
theorem test_pop_destination_before_stack : statusPc (boot [3, 5]) = some (.faulted .invalidOperand 0, 0) := by decide
theorem test_eq_same_register : regPc (bootReg [4, 32768, 32768, 32768] 0 12345) 0 = some (1, 4) := by decide
theorem test_eq_different : regPc (boot [4, 32768, 3, 2]) 0 = some (0, 4) := by decide
theorem test_gt_unsigned : regPc (boot [5, 32768, 16384, 1]) 0 = some (1, 4) := by decide
theorem test_gt_strict : regPc (boot [5, 32768, 7, 7]) 0 = some (0, 4) := by decide
theorem test_jmp_out_of_range : statusPc (boot [6, 100, 0]) = some (.running, 100) := by decide
theorem test_jt_taken : statusPc (bootReg [7, 32768, 4, 0, 0] 0 16384) = some (.running, 4) := by decide
theorem test_jt_untaken_invalid_target : statusPc (boot [7, 0, 40000, 0]) = some (.faulted .invalidOperand 0, 0) := by decide
theorem test_jf_taken : statusPc (boot [8, 0, 4, 0, 0]) = some (.running, 4) := by decide
theorem test_jf_not_taken : statusPc (boot [8, 32767, 4, 0, 0]) = some (.running, 3) := by decide
theorem test_add_wraps : regPc (boot [9, 32768, 32767, 2, 0]) 0 = some (1, 4) := by decide
theorem test_add_replaces : regPc (bootReg [9, 32768, 32769, 4] 1 60) 0 = some (64, 4) := by decide
theorem test_mult_reduces : regPc (boot [10, 32768, 200, 200]) 0 = some (7232, 4) := by decide
theorem test_mult_largest : regPc (boot [10, 32768, 32767, 32767]) 0 = some (1, 4) := by decide
theorem test_mod : regPc (boot [11, 32768, 5, 7]) 0 = some (5, 4) := by decide
theorem test_mod_zero : statusPc (boot [11, 32768, 5, 0]) = some (.faulted .divideByZero 0, 0) := by decide
theorem test_and : regPc (boot [12, 32768, 12, 10]) 0 = some (8, 4) := by decide
theorem test_or : regPc (boot [13, 32768, 21845, 10922]) 0 = some (32767, 4) := by decide
theorem test_not : regPc (boot [14, 32768, 21845]) 0 = some (10922, 3) := by decide
theorem test_rmem_masks : regPc (boot [15, 32768, 4, 0, 32770]) 0 = some (2, 3) := by decide
theorem test_rmem_at_the_end : statusPc (boot [15, 32768, 4, 0]) = some (.faulted .outOfBounds 0, 0) := by decide
theorem test_wmem_own_operand : (after (boot [16, 2, 0, 99])).map (fun t => (t.memRead 2, t.pc)) = some (some 0, 3) := by decide
theorem test_wmem_at_the_end : statusPc (boot [16, 3, 1]) = some (.faulted .outOfBounds 0, 0) := by decide
theorem test_call : stackPc (boot [17, 4, 0, 0, 0]) = some ([2], 4) := by decide
theorem test_call_pushes_before_fault : stackPc (boot [17, 100]) = some ([2], 100) := by decide
theorem test_ret : stackPc (bootStack [18] [4, 7]) = some ([7], 4) := by decide
theorem test_ret_empty : statusPc (boot [18]) = some (.faulted .stackUnderflow 0, 0) := by decide
theorem test_out_low_byte : (after (boot [19, 328, 0])).map State.output = some [72] := by decide
theorem test_out_invalid : (after (boot [19, 40000])).map State.output = some [] := by decide
theorem test_in_byte : regPc (bootInput [20, 32772, 0] [65] true) 4 = some (65, 2) := by decide
theorem test_in_exhausted : statusPc (bootInput [20, 32768] [] true) = some (.faulted .inputExhausted 0, 0) := by decide
theorem test_in_waits : after (boot [20, 32768, 0]) = some (boot [20, 32768, 0]) := by decide
theorem test_in_bad_destination_takes_no_byte : (after (bootInput [20, 5] [65] true)).map State.input = some [65] := by decide

/-! ### Launch, reset and the host -/

theorem test_launch_odd : launch [0, 0, 0] (Vector.replicate 8 none) none = .error .unalignedProgram := by decide
theorem test_launch_words : launch (bytesOf [9, 32768]) (Vector.replicate 8 none) none = .ok (boot [9, 32768]) := by decide
theorem test_launch_preload : (launch (bytesOf [0]) #v[none, some 60, none, none, none, none, none, some 32769] none).map
    (fun s => (s.readReg 1, s.readReg 7)) = .ok (60, 1) := by decide
theorem test_hostLine : (boot [0]).hostLine [10] [97, 98] = bootInput [0] [97, 98, 10] false := by decide
theorem test_withFetchWord_runs : (after (State.reset.withFetchWord 16 21)).map State.pc = some 1 := by decide

/-! ### Memory keeps its canonical form -/

theorem test_writing_zero_removes : (Memory.ofBytes 0 [5, 0, 6, 7]).writeCell 0 0 = [(2, 6), (3, 7)] := by decide

/-! ### Witnesses: the hypotheses of each statement can be met, at the edges of its clauses -/

theorem witness_DecodeOfEncodeIsTheInstruction : (Instr.jt (.register 7) (.invalid 65535)).wellFormed = true := by decide
theorem witness_EncodeOfDecodeIsTheWords : decode [19, 32776, 5] = .ok (.out (.invalid 32776), [5]) := by decide
theorem witness_DecoderTakesArityManyWords : arity 9 = some 3 ∧ 3 ≤ [(1 : Raw), 2, 3].length ∧ [(1 : Raw), 2].length < 3 ∧
    arity 21 = some 0 ∧ arity 22 = none := by decide
theorem witness_OperandWordClasses : (32767 : Raw).toNat ≤ 32767 ∧ 32768 ≤ (32768 : Raw).toNat ∧ (32775 : Raw).toNat ≤ 32775 ∧
    32776 ≤ (32776 : Raw).toNat := by decide
theorem witness_WordsAbove21AreUnknownOpcodes : 21 < (22 : Raw).toNat ∧ (boot [22]).status = .running ∧
    (boot [22]).memRead (boot [22]).pc.toNat = some 22 := by decide
theorem witness_SourceOperandsResolve : (32767 : Raw).toNat ≤ 32767 ∧ (32768 : Raw).toNat = 32768 + (0 : RegIdx).val ∧
    (32775 : Raw).toNat = 32768 + (7 : RegIdx).val ∧ 32776 ≤ (32776 : Raw).toNat := by decide
theorem witness_DestinationOperandsResolve : (32768 : Raw).toNat = 32768 + (0 : RegIdx).val ∧
    (32775 : Raw).toNat = 32768 + (7 : RegIdx).val ∧ (32767 : Raw).toNat ≤ 32767 ∧ 32776 ≤ (32776 : Raw).toNat := by decide
theorem witness_RegisterWriteKeepsLow15Bits : (7 : RegIdx) ≠ 0 := by decide
theorem witness_MemoryReadsLastWrite : (boot [21, 0]).mem.wf ∧ 1 < (boot [21, 0]).cfg.memWords ∧ (0 : Nat) ≠ 1 := by decide
theorem witness_LaunchBuildsTheListedState : [(0 : Byte), 0, 0].length % 2 = 1 ∧ (bytesOf [9]).length % 2 = 0 ∧
    (bytesOf [9]).length ≤ 65536 ∧ (bytesOf [9])[2 * 0]? = some 9 ∧ (bytesOf [9])[2 * 0 + 1]? = some 0 := by decide
theorem witness_LaunchBuildsTheListedState_tooLarge : (List.replicate 65538 (0 : Byte)).length % 2 = 0 ∧
    65536 < (List.replicate 65538 (0 : Byte)).length := by rw [List.length_replicate]; decide
theorem witness_ResetIsTheEmptyLaunch : decodeTableWord 16 21 = some .noop ∧ decodeTableWord 16 22 = none ∧
    decodeTableWord 0 22 = some .halt := by decide
theorem witness_InvariantAfterLaunch : launch (bytesOf [21]) (Vector.replicate 8 none) none = .ok (boot [21]) := by decide
theorem witness_StepKeepsTheInvariant : (boot [21]).Inv ∧ ∃ t, step (boot [21]) = .next t :=
  ⟨⟨by decide, by decide, by decide, by decide, (fun _ h => nomatch h), (fun _ h => nomatch h), (fun _ _ h => nomatch h)⟩, _, rfl⟩
theorem witness_HostMovesChangeOnlyTheInputChannel : State.reset.inputClosed = false ∧
    State.reset.hostClose.inputClosed = true := by decide
theorem witness_StepRunsTheDecodedInstruction : (boot [1, 32768, 5]).status = .running ∧
    (∀ (k : Nat) (w : Raw), [1, 32768, 5][k]? = some w → (boot [1, 32768, 5]).memRead ((boot [1, 32768, 5]).pc.toNat + k) = some w) ∧
    decode [1, 32768, 5] = .ok (.set (.register 0) (.literal 5), []) := by
  refine ⟨by decide, fun k w h => ?_, by decide⟩
  match k, h with
  | 0, h => cases h; decide
  | 1, h => cases h; decide
  | 2, h => cases h; decide
theorem witness_FetchFaultsInOrder : (boot []).status = .running ∧ (boot []).cfg.memWords ≤ (boot []).pc.toNat ∧
    (boot [22]).memRead 0 = some 22 ∧ 21 < (22 : Raw).toNat ∧ (boot [9, 1, 2]).memRead 0 = some 9 ∧ arity 9 = some 3 ∧
    (boot [9, 1, 2]).cfg.memWords ≤ (boot [9, 1, 2]).pc.toNat + 3 := by decide
theorem witness_TerminalStatesTakeNoStep : (∃ t, step (boot [21]) = .next t) ∧
    ({ boot [0] with status := .halted } : State).status = .halted ∧
    ({ boot [0] with status := .faulted .outOfBounds 0 } : State).status = .faulted .outOfBounds 0 := ⟨⟨_, rfl⟩, rfl, rfl⟩
theorem witness_EveryRunningStateHasANextState : State.reset.status = .running := by decide
theorem witness_StatusChangesInTwoWays : (∃ t, step (boot [21]) = .next t ∧ t.status = .running) ∧
    (∃ t, step (boot [0]) = .next t ∧ t.status = .halted) ∧ ∃ t, step (boot [22]) = .next t ∧ t.status = .faulted .unknownOpcode 0 :=
  ⟨⟨_, rfl, rfl⟩, ⟨_, rfl, rfl⟩, _, rfl, rfl⟩
theorem witness_FaultChangesOnlyTheStatus : ∃ t, step (boot [3, 32768]) = .next t ∧ t.status = .faulted .stackUnderflow 0 :=
  ⟨_, rfl, rfl⟩
theorem witness_MemorySizeIsFixed : (∃ t, step (boot [16, 2, 7]) = .next t) ∧ 65536 < (List.replicate 65537 (0 : Byte)).length ∧
    launch [] (Vector.replicate 8 none) none = .ok State.reset :=
  ⟨⟨_, rfl⟩, by rw [List.length_replicate]; decide, by decide⟩
theorem witness_OnlyWmemChangesMemory : ∃ t, step (boot [16, 1, 7]) = .next t ∧ t.mem ≠ (boot [16, 1, 7]).mem :=
  ⟨_, rfl, by decide⟩
theorem witness_StepsStoreOnly15BitValues : (boot [16, 2, 32768]).mem.wf ∧ ∃ t, step (boot [16, 2, 32768]) = .next t :=
  ⟨by decide, _, rfl⟩
theorem witness_OnlyFourInstructionsTouchTheStack : (∃ t, step (boot [2, 5]) = .next t ∧ t.stack = [5]) ∧
    ∃ t, step (bootStack [18] [4]) = .next t ∧ t.stack = [] := ⟨⟨_, rfl, rfl⟩, _, rfl, rfl⟩
theorem witness_RegistersAreWrittenOnlyByDestinations : ∃ t, step (boot [1, 32768, 5]) = .next t ∧
    t.regs ≠ (boot [1, 32768, 5]).regs := ⟨_, rfl, by decide⟩
theorem witness_ChannelsMoveOneByteInOrder : (∃ t, step (boot [19, 72]) = .next t ∧ t.output = [72]) ∧
    ∃ t, step (bootInput [20, 32768] [65] true) = .next t ∧ t.input = [] := ⟨⟨_, rfl, rfl⟩, _, rfl, rfl⟩
theorem witness_FallThroughIsExact : (boot [21]).cfg.memWords ≤ 32768 ∧ fetch (boot [21]) = .ok .noop ∧
    (∃ t, step (boot [21]) = .next t ∧ t.status = .running) ∧ ¬ (boot [21]).Waiting := by
  refine ⟨by decide, rfl, ⟨_, rfl, rfl⟩, ?_⟩
  rintro ⟨-, ⟨i, h⟩, -⟩
  exact nomatch (show (Except.ok Instr.noop : Except FaultKind Instr) = .ok (.inp (.register i)) from h)
theorem witness_FallThroughIsExact_notTaken : fetch (boot [7, 0, 4]) = .ok (.jt (.literal 0) (.literal 4)) ∧
    resolveSrc (boot [7, 0, 4]) (.literal 0) = some 0 ∧ fetch (boot [8, 1, 4]) = .ok (.jf (.literal 1) (.literal 4)) ∧
    resolveSrc (boot [8, 1, 4]) (.literal 1) = some 1 ∧ (1 : Word) ≠ 0 := by decide
theorem witness_OperandFaultsComeBeforeTheInstructionsOwn : fetch (boot [3, 5]) = .ok (.pop (.literal 5)) ∧
    (Instr.pop (.literal 5)).legal = false ∧ fetch (boot [3, 32768]) = .ok (.pop (.register 0)) ∧
    (Instr.pop (.register 0)).legal = true := by decide
theorem witness_OperandFaultsComeBeforeTheInstructionsOwn_kinds :
    statusPc (boot [3, 32768]) = some (.faulted .stackUnderflow 0, 0) ∧
    statusPc { boot [2, 1] with cfg := { memWords := 2, stackCap := some 0 } } = some (.faulted .stackOverflow 0, 0) ∧
    statusPc (boot [16, 3, 1]) = some (.faulted .outOfBounds 0, 0) ∧
    statusPc (boot [11, 32768, 5, 0]) = some (.faulted .divideByZero 0, 0) ∧
    statusPc (bootInput [20, 32768] [] true) = some (.faulted .inputExhausted 0, 0) := by decide
theorem witness_OnlyInDependsOnTheInputChannel : fetch (boot [19, 72]) = .ok (.out (.literal 72)) ∧
    ∃ t, step (boot [19, 72]) = .next t := ⟨rfl, _, rfl⟩
theorem witness_StoreIsSeenByTheNextFetch : ∃ t, exec (.wmem (.literal 3) (.literal 21)) (boot [16, 3, 21, 0]) = .next t ∧
    t.status = .running ∧ t.pc.toNat + 0 = (3 : Word).toNat ∧ decode [21] = .ok (.noop, []) ∧ (boot [16, 3, 21, 0]).mem.wf ∧
    (3 : Word).toNat < (boot [16, 3, 21, 0]).cfg.memWords := ⟨_, rfl, rfl, by decide, by decide, by decide, by decide⟩
theorem witness_RetReturnsBehindItsCall : resolveSrc (boot [17, 4]) (.literal 4) = some 4 ∧
    (boot [17, 4]).cfg.stackCap ≠ some (boot [17, 4]).stack.length ∧
    ∃ t, exec (.call (.literal 4)) (boot [17, 4]) = .next t ∧ t.stack = [2] := ⟨rfl, by decide, _, rfl, rfl⟩

/-- Operands that resolve and operands that do not, for the statements of the single instructions. -/
theorem witness_operands : resolveSrc (boot []) (.literal 32767) = some 32767 ∧ resolveSrc (boot []) (.register 7) = some 0 ∧
    resolveSrc (boot []) (.invalid 32776) = none ∧ resolveDst (.literal 0) = none ∧ resolveDst (.invalid 65535) = none := by decide

theorem witness_SetStoresItsSource : resolveSrc (boot []) (.literal 32767) = some 32767 ∧ (resolveDst (.literal 5) = none ∨
    resolveSrc (boot []) (.literal 7) = none) := by decide
theorem witness_NotIsTheComplementOn15Bits : resolveSrc (boot []) (.literal 32767) = some 32767 ∧ (resolveDst (.literal 5) = none ∨
    resolveSrc (boot []) (.literal 7) = none) := by decide
theorem witness_EqWritesZeroOrOne : resolveSrc (boot []) (.literal 32767) = some 32767 ∧ resolveSrc (boot []) (.register 0) = some 0 ∧
    resolveSrc (boot []) (.invalid 40000) = none := by decide
theorem witness_GtComparesUnsigned : resolveSrc (boot []) (.literal 32767) = some 32767 ∧ resolveSrc (boot []) (.register 0) = some 0 ∧
    resolveSrc (boot []) (.invalid 40000) = none := by decide
theorem witness_AddIsModulo32768 : resolveSrc (boot []) (.literal 32767) = some 32767 ∧ resolveSrc (boot []) (.register 0) = some 0 ∧
    resolveSrc (boot []) (.invalid 40000) = none := by decide
theorem witness_MultIsModulo32768 : resolveSrc (boot []) (.literal 32767) = some 32767 ∧ resolveSrc (boot []) (.register 0) = some 0 ∧
    resolveSrc (boot []) (.invalid 40000) = none := by decide
theorem witness_AndIsBitwise : resolveSrc (boot []) (.literal 32767) = some 32767 ∧ resolveSrc (boot []) (.register 0) = some 0 ∧
    resolveSrc (boot []) (.invalid 40000) = none := by decide
theorem witness_OrIsBitwise : resolveSrc (boot []) (.literal 32767) = some 32767 ∧ resolveSrc (boot []) (.register 0) = some 0 ∧
    resolveSrc (boot []) (.invalid 40000) = none := by decide
theorem witness_ModIsTheUnsignedRemainder : resolveSrc (boot []) (.literal 10) = some 10 ∧ resolveSrc (boot []) (.literal 3) = some 3 ∧
    (3 : Word) ≠ 0 ∧ resolveSrc (boot []) (.register 0) = some 0 ∧ resolveSrc (boot []) (.invalid 40000) = none := by decide
theorem witness_JmpGoesToItsTarget : resolveSrc (boot []) (.literal 32767) = some 32767 ∧ resolveSrc (boot []) (.invalid 32776) = none := by decide
theorem witness_OutEmitsTheLowByte : resolveSrc (boot []) (.literal 32767) = some 32767 ∧ resolveSrc (boot []) (.invalid 32776) = none := by decide
theorem witness_JtBranchesOnNonzero : resolveSrc (boot []) (.register 0) = some 0 ∧ resolveSrc (boot []) (.literal 4) = some 4 ∧
    resolveSrc (boot []) (.invalid 40000) = none := by decide
theorem witness_JfBranchesOnZero : resolveSrc (boot []) (.register 0) = some 0 ∧ resolveSrc (boot []) (.literal 4) = some 4 ∧
    resolveSrc (boot []) (.invalid 40000) = none := by decide
theorem witness_PushAddsOneEntry : resolveSrc (boot []) (.literal 5) = some 5 ∧ (boot []).cfg.stackCap ≠ some (boot []).stack.length ∧
    ({ memWords := 0, stackCap := some 1 } : Config).stackCap = some (bootStack [] [7]).stack.length := by decide
theorem witness_CallPushesTheAddressBehindIt : resolveSrc (boot [17, 4]) (.literal 4) = some 4 ∧
    (boot [17, 4]).cfg.stackCap ≠ some (boot [17, 4]).stack.length ∧ (boot [17, 4]).pc.toNat + 1 < (boot [17, 4]).cfg.memWords ∧
    (boot [17, 4]).cfg.memWords ≤ 32768 ∧ ({ memWords := 2, stackCap := some 0 } : Config).stackCap = some (boot []).stack.length := by decide
theorem witness_PopTakesTheTopEntry : (bootStack [] [32768, 4]).stack = 32768 :: [4] ∧ (boot []).stack = [] ∧ resolveDst (.literal 5) = none := by decide
theorem witness_RetGoesToTheTopEntry : (bootStack [] [32768]).stack = 32768 :: [] ∧ (boot []).stack = [] := by decide
theorem witness_RmemReadsOneCell : resolveSrc (boot [0, 0]) (.literal 1) = some 1 ∧ (1 : Word).toNat < (boot [0, 0]).cfg.memWords ∧
    resolveSrc (boot [0, 0]) (.literal 2) = some 2 ∧ (boot [0, 0]).cfg.memWords ≤ (2 : Word).toNat ∧ resolveDst (.literal 1) = none := by decide
theorem witness_WmemWritesOneCell : (boot [0, 5]).mem.wf ∧ resolveSrc (boot [0, 5]) (.literal 1) = some 1 ∧
    (1 : Word).toNat < (boot [0, 5]).cfg.memWords ∧ resolveSrc (boot [0, 5]) (.literal 2) = some 2 ∧
    (boot [0, 5]).cfg.memWords ≤ (2 : Word).toNat ∧ resolveSrc (boot [0, 5]) (.invalid 32776) = none := by decide
theorem witness_InTakesTheNextByteOrWaits : (bootInput [] [255, 1] false).input = 255 :: [1] ∧ (bootInput [] [] true).input = [] ∧
    (bootInput [] [] true).inputClosed = true ∧ (bootInput [] [] false).inputClosed = false ∧ resolveDst (.literal 5) = none := by decide
theorem witness_RegisterFormsChangeOnlyTheirDestination : (∃ t, exec (.set (.register 0) (.literal 5)) (boot []) = .next t) ∧
    resolveDst (.register 0) ≠ some 1 := ⟨⟨_, rfl⟩, by decide⟩
theorem witness_ControlFormsChangeNoRegisterOrMemory : ∃ t, exec (.push (.literal 5)) (boot []) = .next t ∧ t.stack = [5] := ⟨_, rfl, rfl⟩
theorem witness_PopAndInChangeOneRegisterAndTheirSource : (∃ t, exec (.pop (.register 0)) (bootStack [] [5]) = .next t) ∧
    ∃ t, exec (.inp (.register 0)) (boot []) = .next t := ⟨⟨_, rfl⟩, _, rfl⟩
theorem witness_WmemChangesOnlyItsCell : (boot [0, 5]).mem.wf ∧ resolveSrc (boot [0, 5]) (.literal 1) = some 1 ∧
    ∃ t, exec (.wmem (.literal 1) (.literal 7)) (boot [0, 5]) = .next t := ⟨by decide, rfl, _, rfl⟩

end Sys2Proof.Tests
end

section
/-! The decoder's reading: how many operand words it takes, and that it looks at no more of them. -/

namespace Sys2Proof

/-- With `n` words in front, `f` reads an instruction whose operands are their classes, and leaves the rest. -/
def TakesOperands (n : Nat) (f : List Raw → Decoded) : Prop :=
  ∀ as : List Raw, as.length = n → ∃ i, i.operands = as.map classify ∧ ∀ rest, f (as ++ rest) = .ok (i, rest)

theorem takesOperands_ok {i : Instr} (hi : i.operands = []) : TakesOperands 0 fun ws => .ok (i, ws) := by
  intro as hlen
  obtain rfl := List.length_eq_zero_iff.1 hlen
  exact ⟨i, hi, fun _ => rfl⟩

theorem takesOperands_takeOne {mk : Operand → Instr} (hmk : ∀ a, (mk a).operands = [a]) :
    TakesOperands 1 (takeOne mk) := by
  intro as hlen
  obtain ⟨a, rfl⟩ := List.length_eq_one_iff.1 hlen
  exact ⟨mk (classify a), hmk _, fun _ => rfl⟩

theorem takesOperands_takeTwo {mk : Operand → Operand → Instr} (hmk : ∀ a b, (mk a b).operands = [a, b]) :
    TakesOperands 2 (takeTwo mk) := by
  intro as hlen
  obtain ⟨a, b, rfl⟩ := List.length_eq_two.1 hlen
  exact ⟨mk (classify a) (classify b), hmk _ _, fun _ => rfl⟩

theorem takesOperands_takeThree {mk : Operand → Operand → Operand → Instr}
    (hmk : ∀ a b c, (mk a b c).operands = [a, b, c]) : TakesOperands 3 (takeThree mk) := by
  intro as hlen
  obtain ⟨a, b, c, rfl⟩ := List.length_eq_three.1 hlen
  exact ⟨mk (classify a) (classify b) (classify c), hmk _ _ _, fun _ => rfl⟩

/-- Every row of the opcode map takes as many operands as the arity table says (R62, R64). -/
theorem takesOperands_decode {op : Raw} {n : Nat} (h : arity op = some n) :
    TakesOperands n fun ws => decode (op :: ws) := by
  have zero {i : Instr} := takesOperands_ok (i := i)
  have one {mk : Operand → Instr} := takesOperands_takeOne (mk := mk)
  have two {mk : Operand → Operand → Instr} := takesOperands_takeTwo (mk := mk)
  have three {mk : Operand → Operand → Operand → Instr} := takesOperands_takeThree (mk := mk)
  have hop : op.toNat < 22 := Nat.lt_of_not_le fun hge => by rw [arity_of_large hge] at h; cases h
  unfold arity at h
  simp only [decode]
  generalize op.toNat = m at *
  interval_cases m <;> injection h with h <;> subst h
  exacts [
    zero rfl, two fun _ _ => rfl, one fun _ => rfl, one fun _ => rfl, -- halt, set, push, pop
    three fun _ _ _ => rfl, three fun _ _ _ => rfl, -- eq, gt
    one fun _ => rfl, two fun _ _ => rfl, two fun _ _ => rfl, -- jmp, jt, jf
    three fun _ _ _ => rfl, three fun _ _ _ => rfl, three fun _ _ _ => rfl, -- add, mult, mod
    three fun _ _ _ => rfl, three fun _ _ _ => rfl, two fun _ _ => rfl, -- and, or, not
    two fun _ _ => rfl, two fun _ _ => rfl, one fun _ => rfl, zero rfl, -- rmem, wmem, call, ret
    one fun _ => rfl, one fun _ => rfl, zero rfl] -- out, in, noop

/-- No instruction takes more than three operands (R63). -/
theorem arity_le_three {op : Raw} {n : Nat} (h : arity op = some n) : n ≤ 3 := by
  unfold arity at h
  split at h <;> cases h <;> decide

end Sys2Proof
end

section
/-! What a fetch implies about pc, and what it reads where `State.withFetchWord` has placed a table word. -/

namespace Sys2Proof.Machine

/-- Every cell of a fetched instruction exists, so pc is far enough from the end of memory (R73, R75). -/
theorem fetch_within_memory {s : State} {i : Instr} (h : fetch s = .ok i) :
    s.pc.toNat + i.operands.length < s.cfg.memWords := by
  obtain ⟨op, n, ws, hop, hn, hws, hd⟩ := fetch_eq_ok h
  obtain ⟨j, hj, hdj⟩ := takesOperands_decode hn ws (State.memReadMany_eq_some.1 hws).1
  obtain rfl : j = i := by
    have hdj' : decode (op :: ws) = .ok (j, []) := by simpa using hdj []
    exact congrArg Prod.fst (Except.ok.inj (hdj'.symm.trans hd))
  have hlen : j.operands.length = n := by rw [hj, List.length_map, (State.memReadMany_eq_some.1 hws).1]
  have hfirst := (State.memRead_eq_some.1 hop).1
  have hlast : ¬ ∃ k, k < n ∧ s.cfg.memWords ≤ s.pc.toNat + 1 + k := by
    simp [← State.memReadMany_eq_none, hws]
  by_contra hge
  exact hlast ⟨n - 1, by omega, by omega⟩

/-- The fall-through of a fetched instruction does not wrap and stays within R17's range. -/
theorem fetch_nextIp_le {s : State} {i : Instr} (hm : s.cfg.memWords ≤ 32768) (h : fetch s = .ok i) :
    (s.nextIp i.operands.length).toNat ≤ 32768 := by
  have := fetch_within_memory h
  simp only [State.nextIp, BitVec.toNat_add, BitVec.toNat_ofNat]
  omega

/-- A placed table word is one opcode word and three more; the step fetches what the decoder reads from them, or finds no
opcode. -/
theorem fetch_withFetchWord {s : State} (h : s.mem.wf) (nbits w : Nat) :
    (∃ i, decodeTableWord nbits w = some i ∧ fetch (s.withFetchWord nbits w) = .ok i) ∨
      decodeTableWord nbits w = none ∧ fetch (s.withFetchWord nbits w) = .error .unknownOpcode := by
  obtain ⟨op, ws, htable, hlen⟩ : ∃ op ws, tableWords nbits w = op :: ws ∧ ws.length = 3 := ⟨_, _, rfl, rfl⟩
  have hread {k : Nat} (hk : k < 4) := State.memRead_withFetchWord h nbits w hk
  simp only [htable] at hread
  have hop : (s.withFetchWord nbits w).memRead s.pc.toNat = some op := hread (k := 0) (by decide)
  cases hn : arity op with
  | none =>
    have hlarge := arity_eq_none.1 hn
    exact .inr ⟨by simp only [decodeTableWord, htable, decode_of_large hlarge], fetch_of_unknown hop hlarge⟩
  | some n =>
    have hn3 := arity_le_three hn
    have htake : (ws.take n).length = n := by rw [List.length_take]; omega
    obtain ⟨i, -, hd⟩ := takesOperands_decode hn (ws.take n) htake
    have hws : (s.withFetchWord nbits w).memReadMany (s.pc.toNat + 1) n = some (ws.take n) := by
      refine State.memReadMany_eq_some.2 ⟨htake, fun k hk => ?_⟩
      have hk3 : k < 3 := by omega
      rw [Nat.add_assoc, Nat.add_comm 1 k, hread (by omega)]
      simp [hlen, hk3]
    refine .inl ⟨i, ?_, fetch_of_words hop hn hws (by simpa using hd [])⟩
    have hall := hd (ws.drop n)
    rw [List.take_append_drop] at hall
    simp only [decodeTableWord, htable, hall]

end Sys2Proof.Machine
end

section
/-! The invariant, one rule for each operation of the state. -/

namespace Sys2Proof.Machine

variable {s : State}

theorem State.Inv.raise (h : s.Inv) (k : FaultKind) : (s.raise k).Inv :=
  { h with fault_ip := by rintro _ _ ⟨⟩; rfl }

theorem State.Inv.halt (h : s.Inv) : s.halt.Inv :=
  { h with fault_ip := by rintro _ _ ⟨⟩ }

theorem State.Inv.withRegs (h : s.Inv) (regs : Vector Word 8) : State.Inv { s with regs := regs } := { h with }

theorem State.Inv.emit (h : s.Inv) (b : Byte) : (s.emit b).Inv := { h with }

theorem State.Inv.consume (h : s.Inv) : s.consume.Inv := { h with }

theorem State.Inv.memWrite (h : s.Inv) {addr : Nat} (ha : addr < s.cfg.memWords) (v : Raw) : (s.memWrite addr v).Inv :=
  { h with
    mem_wf := Memory.wf_writeCell h.mem_wf addr v
    mem_inside := Memory.below_writeCell h.mem_inside ha v }

theorem State.Inv.dropTop (h : s.Inv) : s.dropTop.Inv :=
  { h with
    stack_le := fun e he => h.stack_le e (List.mem_of_mem_tail he)
    depth_le := fun n hn => by
      have := h.depth_le n hn
      simp only [State.dropTop_stack, List.length_tail]
      omega }

theorem State.Inv.pushEntry (h : s.Inv) {v : Raw} (hv : v.toNat ≤ 32768) (hf : s.cfg.stackCap ≠ some s.stack.length) :
    (s.pushEntry v).Inv :=
  { h with
    stack_le := List.forall_mem_cons.2 ⟨hv, h.stack_le⟩
    depth_le := fun n hn => by
      have hle := h.depth_le n hn
      have hne : s.stack.length ≠ n := fun e => hf (e ▸ hn)
      simp only [State.pushEntry_stack, List.length_cons]
      omega }

/-- Only a Running block moves its pc: in a Faulted one the recorded ip would no longer be the pc. -/
theorem State.Inv.jumpTo (h : s.Inv) (hr : s.status = .running) {t : Raw} (ht : t.toNat ≤ 32768) : (s.jumpTo t).Inv :=
  { h with
    pc_le := ht
    fault_ip := fun k ip hk => by simp [hr] at hk }

theorem zext_le (v : Word) : (zext v).toNat ≤ 32768 := by
  have := v.isLt
  rw [zext_toNat]
  omega

/-- An instruction's effect keeps the invariant in a Running state whose fall-through and return address stay in R17's range. -/
theorem Effect.inv {i : Instr} {t : State} (he : Effect s i t) (h : s.Inv) (hr : s.status = .running)
    (hn : (s.nextIp i.operands.length).toNat ≤ 32768) : t.Inv := by
  cases he with
  | raised _ k => exact h.raise k
  | halted => exact h.halt
  | advanced => exact h.jumpTo hr hn
  | wroteRegister j v => exact (h.withRegs (s.regs.set j v)).jumpTo hr hn
  | pushed a ha hf => exact (h.pushEntry (zext_le _) hf).jumpTo hr hn
  | popped j he => exact (h.dropTop.withRegs _).jumpTo hr hn
  | jumped hi hb => exact h.jumpTo hr (zext_le _)
  | notTaken hi => cases hi <;> exact h.jumpTo hr hn
  | stored ha hb hlt => exact (h.memWrite hlt _).jumpTo hr hn
  | called a ha hf => exact (h.pushEntry hn hf).jumpTo hr (zext_le _)
  | returned he => exact h.dropTop.jumpTo hr (h.stack_le _ (he ▸ List.mem_cons_self))
  | emitted a ha => exact (h.emit _).jumpTo hr hn
  | waited j => exact h
  | received j hc => exact (h.consume.withRegs _).jumpTo hr hn

/-- Settles O16: a fetch fault raises, and a fetched instruction's cells exist, so that its effect keeps the invariant. -/
theorem stepKeepsTheInvariant : Obligations.StepKeepsTheInvariant := by
  intro s t h hs
  obtain ⟨hr, ⟨k, -, rfl⟩ | ⟨i, hi, hx⟩⟩ := step_next hs
  · exact h.raise k
  · exact (exec_effect hx).inv h hr (fetch_nextIp_le h.memWords_le hi)

/-- An accepted image fits the memory size, its cells come from its own bytes, and everything else starts empty (R38, R139). -/
theorem launch_inv {image : List Byte} {preload : Vector (Option Nat) 8} {cap : Option Nat} {s : State}
    (h : launch image preload cap = .ok s) : s.Inv := by
  unfold launch at h
  split at h
  · cases h
  · next heven =>
    split at h
    · cases h
    · next hsize =>
      injection h with h
      subst h
      exact {
        memWords_le := Nat.le_of_not_lt hsize
        mem_wf := Memory.wf_ofBytes 0 image
        mem_inside := fun c hc => by
          have := (Memory.mem_ofBytes hc).2
          simp only
          omega
        pc_le := Nat.zero_le _
        stack_le := fun _ he => by cases he
        depth_le := fun _ _ => Nat.zero_le _
        fault_ip := fun _ _ hk => by cases hk }

/-- Settles O14: whatever a launch accepts meets the invariant. -/
theorem invariantAfterLaunch : Obligations.InvariantAfterLaunch := fun _ _ _ _ => launch_inv

/-- The reset state is the launch of the empty image (R38, R143; logs 2 and 3). -/
theorem launch_empty : launch [] (Vector.replicate 8 none) none = .ok State.reset := by decide

/-- Settles O15: reset is a launch. -/
theorem invariantAtReset : Obligations.InvariantAtReset := launch_inv launch_empty

end Sys2Proof.Machine
end

section
/-! What an instruction's effect can change, field by field: the frame rules of all instructions at once. -/

namespace Sys2Proof.Machine

variable {s t : State} {i : Instr}

theorem Effect.cfg_eq (h : Effect s i t) : t.cfg = s.cfg := by
  cases h <;> rfl

theorem Effect.inputClosed_eq (h : Effect s i t) : t.inputClosed = s.inputClosed := by
  cases h <;> rfl

/-- Only `halt` and a raise change the status (R32). -/
theorem Effect.status_cases (h : Effect s i t) :
    t.status = s.status ∨ (i = .halt ∧ t.status = .halted) ∨ ∃ k, t.status = .faulted k s.pc := by
  cases h with
  | raised _ k => exact .inr (.inr ⟨k, rfl⟩)
  | halted => exact .inr (.inl ⟨rfl, rfl⟩)
  | _ => exact .inl rfl

/-- Only `wmem` changes memory (R44). -/
theorem Effect.mem_cases (h : Effect s i t) : t.mem = s.mem ∨ ∃ a b, i = .wmem a b := by
  cases h with
  | stored => exact .inr ⟨_, _, rfl⟩
  | _ => exact .inl rfl

/-- Only `out` adds to the output (R111). -/
theorem Effect.output_cases (h : Effect s i t) :
    t.output = s.output ∨ ∃ a b, i = .out a ∧ t.output = s.output ++ [b] := by
  cases h with
  | emitted a => exact .inr ⟨a, _, rfl, rfl⟩
  | _ => exact .inl rfl

/-- Only `in` takes a byte (R112). -/
theorem Effect.input_cases (h : Effect s i t) : t.input = s.input ∨ ∃ a c, i = .inp a ∧ s.input = c :: t.input := by
  cases h with
  | received j hc => exact .inr ⟨_, _, rfl, hc⟩
  | _ => exact .inl rfl

/-- Only four instructions touch the stack, by one entry at its top (R28). -/
theorem Effect.stack_cases (h : Effect s i t) :
    t.stack = s.stack ∨
    ((∃ a, i = .push a ∨ i = .call a) ∧ ∃ e, t.stack = e :: s.stack) ∨
    (((∃ a, i = .pop a) ∨ i = .ret) ∧ ∃ e, s.stack = e :: t.stack) := by
  cases h with
  | pushed a => exact .inr (.inl ⟨⟨a, .inl rfl⟩, _, rfl⟩)
  | called a => exact .inr (.inl ⟨⟨a, .inr rfl⟩, _, rfl⟩)
  | popped j he => exact .inr (.inr ⟨.inl ⟨_, rfl⟩, _, he⟩)
  | returned he => exact .inr (.inr ⟨.inr rfl, _, he⟩)
  | _ => exact .inl rfl

/-- The instructions that write the register their operand a names (R23). -/
def WritesRegister (i : Instr) : Prop := isRegisterForm i = true ∨ (∃ a, i = .pop a) ∨ ∃ a, i = .inp a

/-- Only those twelve write a register, the one operand a names, and none of them when it faults (R23). -/
theorem Effect.regs_cases (h : Effect s i t) :
    t.regs = s.regs ∨ WritesRegister i ∧ t.status = s.status ∧
      ∃ (j : RegIdx) (v : Word), i.operands.head? = some (.register j) ∧ t.regs = s.regs.set j v := by
  cases h with
  | wroteRegister j v hi hj => exact .inr ⟨.inl hi, rfl, j, v, hj, rfl⟩
  | popped j => exact .inr ⟨.inr (.inl ⟨_, rfl⟩), rfl, j, _, rfl, rfl⟩
  | received j => exact .inr ⟨.inr (.inr ⟨_, rfl⟩), rfl, j, _, rfl, rfl⟩
  | _ => exact .inl rfl

/-- A register that operand a does not name is unchanged. -/
theorem Effect.readReg_other (h : Effect s i t) {a : Operand} (ha : i.operands.head? = some a) {j : RegIdx}
    (hj : resolveDst a ≠ some j) : t.readReg j = s.readReg j := by
  rcases h.regs_cases with hregs | ⟨-, -, l, v, hl, hregs⟩
  · simp only [State.readReg, hregs]
  · obtain rfl : a = .register l := Option.some.inj (ha.symm.trans hl)
    have hne : l ≠ j := fun e => hj (by rw [e]; rfl)
    simpa [State.readReg, hregs] using Vector.getElem_set_ne _ _ (Fin.val_ne_of_ne hne)

/-- The frame of the status for every instruction but `halt`. -/
theorem Effect.status_of_ne_halt (h : Effect s i t) (hi : i ≠ .halt) :
    t.status = s.status ∨ ∃ k, t.status = .faulted k s.pc :=
  h.status_cases.imp_right fun h => h.resolve_left fun ⟨hh, _⟩ => hi hh

theorem Effect.mem_eq (h : Effect s i t) (hi : ∀ a b, i ≠ .wmem a b) : t.mem = s.mem :=
  h.mem_cases.resolve_right fun ⟨a, b, e⟩ => hi a b e

theorem Effect.output_eq (h : Effect s i t) (hi : ∀ a, i ≠ .out a) : t.output = s.output :=
  h.output_cases.resolve_right fun ⟨a, _, e, _⟩ => hi a e

theorem Effect.input_eq (h : Effect s i t) (hi : ∀ a, i ≠ .inp a) : t.input = s.input :=
  h.input_cases.resolve_right fun ⟨a, _, e, _⟩ => hi a e

theorem Effect.stack_eq (h : Effect s i t) (hpush : ∀ a, i ≠ .push a) (hcall : ∀ a, i ≠ .call a)
    (hpop : ∀ a, i ≠ .pop a) (hret : i ≠ .ret) : t.stack = s.stack := by
  rcases h.stack_cases with h | ⟨⟨a, e | e⟩, -⟩ | ⟨⟨a, e⟩ | e, -⟩
  · exact h
  · exact absurd e (hpush a)
  · exact absurd e (hcall a)
  · exact absurd e (hpop a)
  · exact absurd e hret

end Sys2Proof.Machine
end

section
/-! The statements about the status, the stack and the registers over a step, and the frames of the instructions. -/

namespace Sys2Proof.Machine

/-- Settles O22: a fetch fault raises, and a fetched instruction changes the status as its effect says. -/
theorem statusChangesInTwoWays : Obligations.StatusChangesInTwoWays := by
  intro s t hs
  obtain ⟨hr, ⟨k, -, rfl⟩ | ⟨i, hi, hx⟩⟩ := step_next hs
  · exact ⟨hr, .inr (.inr ⟨k, rfl⟩)⟩
  · refine ⟨hr, ?_⟩
    rcases (exec_effect hx).status_cases with h | ⟨rfl, h⟩ | h
    · exact .inl (h.trans hr)
    · exact .inr (.inl ⟨h, hi⟩)
    · exact .inr (.inr h)

/-- Settles O27, by the stack rule of the effects. -/
theorem onlyFourInstructionsTouchTheStack : Obligations.OnlyFourInstructionsTouchTheStack := by
  intro s t hs
  obtain ⟨-, ⟨k, -, rfl⟩ | ⟨i, hi, hx⟩⟩ := step_next hs
  · exact .inl rfl
  · simpa only [hi, Except.ok.injEq] using (exec_effect hx).stack_cases

/-- The twelve instructions by name, once operand a is known to be register `j`. -/
theorem WritesRegister.forms {i : Instr} (h : WritesRegister i) {j : RegIdx}
    (hj : i.operands.head? = some (.register j)) :
    (∃ b, i = .set (.register j) b) ∨ i = .pop (.register j) ∨
    (∃ b c, i = .eq (.register j) b c) ∨ (∃ b c, i = .gt (.register j) b c) ∨
    (∃ b c, i = .add (.register j) b c) ∨ (∃ b c, i = .mult (.register j) b c) ∨
    (∃ b c, i = .mod (.register j) b c) ∨ (∃ b c, i = .and (.register j) b c) ∨
    (∃ b c, i = .or (.register j) b c) ∨ (∃ b, i = .not (.register j) b) ∨
    (∃ b, i = .rmem (.register j) b) ∨ i = .inp (.register j) := by
  rcases h with h | ⟨a, rfl⟩ | ⟨a, rfl⟩
  · cases i with
    | halt | push | pop | jmp | jt | jf | wmem | call | ret | out | inp | noop => cases h
    | set | eq | gt | add | mult | mod | and | or | not | rmem => simpa [Instr.operands] using hj
  · simpa [Instr.operands] using hj
  · simpa [Instr.operands] using hj

/-- Settles O28, by the register rule of the effects; a fetch fault writes none. -/
theorem registersAreWrittenOnlyByDestinations : Obligations.RegistersAreWrittenOnlyByDestinations := by
  intro s t hs hne
  obtain ⟨hr, ⟨k, -, rfl⟩ | ⟨i, hi, hx⟩⟩ := step_next hs
  · exact absurd rfl hne
  · obtain ⟨hw, hstatus, j, v, hj, hregs⟩ := (exec_effect hx).regs_cases.resolve_left hne
    refine ⟨hstatus.trans hr, j, v, hregs, ?_⟩
    simpa only [hi, Except.ok.injEq] using hw.forms hj

/-- Settles O57: a register form is none of the instructions that touch anything else. -/
theorem registerFormsChangeOnlyTheirDestination : Obligations.RegisterFormsChangeOnlyTheirDestination := by
  intro s t a b c h
  obtain ⟨i, hi, ha, hx⟩ : ∃ i, isRegisterForm i = true ∧ i.operands.head? = some a ∧ exec i s = .next t := by
    rcases h with h | h | h | h | h | h | h | h | h | h <;> exact ⟨_, rfl, rfl, h⟩
  have he := exec_effect hx
  have hne {j : Instr} (hj : isRegisterForm j = false) : i ≠ j := fun e => by rw [e, hj] at hi; cases hi
  refine ⟨fun j hj => he.readReg_other ha hj, fun x => ?_, ?_, ?_, ?_, he.inputClosed_eq, he.cfg_eq,
    he.status_of_ne_halt (hne rfl)⟩
  · rw [he.mem_eq fun _ _ => hne rfl]
  · exact he.stack_eq (fun _ => hne rfl) (fun _ => hne rfl) (fun _ => hne rfl) (hne rfl)
  · exact he.output_eq fun _ => hne rfl
  · exact he.input_eq fun _ => hne rfl

/-- Settles O58: a control form is none of the twelve that write a register, and is no `wmem`. -/
theorem controlFormsChangeNoRegisterOrMemory : Obligations.ControlFormsChangeNoRegisterOrMemory := by
  intro s t a b i hi hx
  have he := exec_effect hx
  have hnw : ¬ WritesRegister i := by
    rcases hi with rfl | rfl | rfl | rfl | rfl | rfl | rfl | rfl | rfl <;> simp [WritesRegister, isRegisterForm]
  have hregs := he.regs_cases.resolve_right fun h => hnw h.1
  refine ⟨fun j => by rw [State.readReg, hregs]; rfl, fun x => ?_, ?_, he.inputClosed_eq, he.cfg_eq,
    fun hpush hcall hret => ?_, fun hout => ?_, he.status_cases⟩
  · rw [he.mem_eq (by rintro _ _ rfl; simp at hi)]
  · exact he.input_eq fun c e => hnw (.inr (.inr ⟨c, e⟩))
  · exact he.stack_eq (fun _ e => hpush (by subst e; simpa using hi)) (fun _ e => hcall (by subst e; simpa using hi))
      (fun c e => hnw (.inr (.inl ⟨c, e⟩))) hret
  · exact he.output_eq fun _ e => hout (by subst e; simpa using hi)

/-- Settles O59: `pop` and `in` write the register operand a names, and take only from their own source. -/
theorem popAndInChangeOneRegisterAndTheirSource : Obligations.PopAndInChangeOneRegisterAndTheirSource := by
  intro s t a i hi hx
  have he := exec_effect hx
  have ha : i.operands.head? = some a := by rcases hi with rfl | rfl <;> rfl
  refine ⟨fun j hj => he.readReg_other ha hj, fun x => ?_, ?_, he.inputClosed_eq, he.cfg_eq, ?_, ?_, ?_⟩
  · rw [he.mem_eq (by rintro _ _ rfl; simp at hi)]
  · exact he.output_eq (by rintro _ rfl; simp at hi)
  · rintro rfl
    exact he.stack_eq nofun nofun nofun nofun
  · rintro rfl
    exact he.input_eq nofun
  · exact he.status_of_ne_halt (by rintro rfl; simp at hi)

end Sys2Proof.Machine
end

section
/-! The register write, reset, the host's moves and the terminal states. -/

namespace Sys2Proof.Machine

/-- Settles O9, by the register file's read-after-write rule. -/
theorem registerWriteKeepsLow15Bits : Obligations.RegisterWriteKeepsLow15Bits := by
  intro s i v
  refine ⟨?_, fun j hj => ?_⟩
  · rw [State.readReg_writeReg, if_pos rfl, BitVec.toNat_setWidth]
  · rw [State.readReg_writeReg, if_neg hj.symm]

/-- Settles O13: what the fetch finds where a table word is placed decides the first step. -/
theorem resetIsTheEmptyLaunch : Obligations.ResetIsTheEmptyLaunch := by
  refine ⟨launch_empty, rfl, by decide, rfl, rfl, fun nbits w => ?_⟩
  rcases fetch_withFetchWord Memory.wf_reset nbits w with ⟨i, hd, hf⟩ | ⟨hd, hf⟩
  · refine ⟨fun j hj => ?_, fun hnone => by rw [hd] at hnone; cases hnone⟩
    obtain rfl : i = j := Option.some.inj (hd.symm.trans hj)
    exact step_of_fetch rfl hf
  · exact ⟨fun j hj => (by rw [hd] at hj; cases hj), fun _ => step_of_fetchFault rfl hf⟩

theorem State.hostSend_of_open {s : State} (h : s.inputClosed = false) (bytes : List Byte) :
    s.hostSend bytes = { s with input := s.input ++ bytes } := by
  simp [State.hostSend, h]

theorem State.hostSend_of_closed {s : State} (h : s.inputClosed = true) (bytes : List Byte) : s.hostSend bytes = s := by
  simp [State.hostSend, h]

/-- Settles O17, by whether the source is open or closed. -/
theorem hostMovesChangeOnlyTheInputChannel : Obligations.HostMovesChangeOnlyTheInputChannel := by
  intro s bytes line lineTerminator
  refine ⟨?_, fun h => ?_, fun h => State.hostSend_of_closed h bytes, rfl, rfl⟩
  · rcases Bool.eq_false_or_eq_true s.inputClosed with h | h
    · rw [State.hostSend_of_closed h]
    · rw [State.hostSend_of_open h]
  · rw [State.hostSend_of_open h]

/-- Settles O20: a next state comes only from Running, and the terminal answers are the step's own. -/
theorem terminalStatesTakeNoStep : Obligations.TerminalStatesTakeNoStep := by
  refine ⟨fun s t h => (step_next h).1, fun s h => ?_, fun s k ip h => ?_⟩
  · simp only [step, h]
  · simp only [step, h]

end Sys2Proof.Machine
end

section
/-! The decoder refuses a list too short for its opcode, so what it reads in full is one opcode word and arity many more. -/

namespace Sys2Proof

theorem takeOne_of_length_lt {mk : Operand → Instr} {ws : List Raw} (h : ws.length < 1) :
    takeOne mk ws = .error .missingOperand := by
  match ws, h with
  | [], _ => rfl

theorem takeTwo_of_length_lt {mk : Operand → Operand → Instr} {ws : List Raw} (h : ws.length < 2) :
    takeTwo mk ws = .error .missingOperand := by
  match ws, h with
  | [], _ => rfl
  | [_], _ => rfl

theorem takeThree_of_length_lt {mk : Operand → Operand → Operand → Instr} {ws : List Raw} (h : ws.length < 3) :
    takeThree mk ws = .error .missingOperand := by
  match ws, h with
  | [], _ => rfl
  | [_], _ => rfl
  | [_, _], _ => rfl

/-- Every row of the opcode map refuses fewer operand words than the arity table asks for (R62, R64). -/
theorem decode_of_length_lt {op : Raw} {n : Nat} {ws : List Raw} (h : arity op = some n) (hl : ws.length < n) :
    decode (op :: ws) = .error .missingOperand := by
  have hop : op.toNat < 22 := Nat.lt_of_not_le fun hge => by rw [arity_of_large hge] at h; cases h
  unfold arity at h
  simp only [decode]
  generalize op.toNat = m at *
  interval_cases m <;> injection h with h <;> subst h <;>
    simp_all only [Nat.not_lt_zero, takeOne_of_length_lt, takeTwo_of_length_lt, takeThree_of_length_lt]

/-- Words that the decoder reads with none left over are an opcode word and as many more as its arity says. -/
theorem arity_of_decode_eq_ok {ws : List Raw} {i : Instr} (h : decode ws = .ok (i, [])) :
    ∃ op as, ws = op :: as ∧ arity op = some as.length := by
  cases ws with
  | nil => cases h
  | cons op as =>
    refine ⟨op, as, rfl, ?_⟩
    cases hn : arity op with
    | none => rw [decode_of_large (arity_eq_none.1 hn)] at h; cases h
    | some n =>
      have hge : n ≤ as.length := Nat.le_of_not_lt fun hlt => by rw [decode_of_length_lt hn hlt] at h; cases h
      obtain ⟨j, -, hd⟩ := takesOperands_decode hn (as.take n) (List.length_take_of_le hge)
      have hrest : decode (op :: (as.take n ++ as.drop n)) = .ok (j, as.drop n) := hd _
      rw [List.take_append_drop, h] at hrest
      have hdrop : as.drop n = [] := (congrArg Prod.snd (Except.ok.inj hrest)).symm
      rw [Nat.le_antisymm hge (List.drop_eq_nil_iff.1 hdrop)]

end Sys2Proof
end

section
/-! What is fetched, a memory write, a `wmem` and a refused launch, each by its own rule. -/

namespace Sys2Proof.Machine

/-- Cells at pc that hold the words of an instruction are fetched as that instruction (R73 to R75). -/
theorem fetch_of_decode {s : State} {ws : List Raw} {i : Instr}
    (hcells : ∀ (k : Nat) (w : Raw), ws[k]? = some w → s.memRead (s.pc.toNat + k) = some w)
    (hd : decode ws = .ok (i, [])) : fetch s = .ok i := by
  obtain ⟨op, as, rfl, hn⟩ := arity_of_decode_eq_ok hd
  have has : s.memReadMany (s.pc.toNat + 1) as.length = some as := by
    refine State.memReadMany_eq_some.2 ⟨rfl, fun k hk => ?_⟩
    rw [Nat.add_assoc, Nat.add_comm 1 k]
    exact hcells (k + 1) as[k] (by simp)
  exact fetch_of_words (hcells 0 op rfl) hn has hd

theorem State.memRead_memWrite_same {s : State} (h : s.mem.wf) {a : Nat} (ha : a < s.cfg.memWords) (v : Raw) :
    (s.memWrite a v).memRead a = some v := by
  rw [State.memRead_memWrite h, if_pos ha, if_pos rfl]

theorem State.memRead_memWrite_other {s : State} (h : s.mem.wf) {a b : Nat} (hne : b ≠ a) (v : Raw) :
    (s.memWrite a v).memRead b = s.memRead b := by
  rw [State.memRead_memWrite h, if_neg hne, State.memRead]

/-- An effect on memory is the store of a `wmem`, at the address and of the value that its operands resolve to (R44, R110). -/
theorem Effect.mem_eq_or_stored {s t : State} {i : Instr} (h : Effect s i t) :
    t.mem = s.mem ∨ ∃ (a b : Operand) (addr v : Word), i = .wmem a b ∧ resolveSrc s a = some addr ∧
      resolveSrc s b = some v ∧ t.mem = s.mem.writeCell addr.toNat (zext v) := by
  cases h with
  | stored ha hb => exact .inr ⟨_, _, _, _, rfl, ha, hb, rfl⟩
  | _ => exact .inl rfl

/-- A `wmem` whose operands resolve, to an address that exists, stores and falls through (R110). -/
theorem exec_wmem_of_lt {s : State} {a b : Operand} {addr v : Word} (ha : resolveSrc s a = some addr)
    (hb : resolveSrc s b = some v) (hlt : addr.toNat < s.cfg.memWords) :
    exec (.wmem a b) s = .next ((s.memWrite addr.toNat (zext v)).fallThrough 2) := by
  simp only [exec, execWmem, withSource_of_some ha, withSource_of_some hb, if_pos hlt]

theorem launch_of_odd {image : List Byte} (h : image.length % 2 = 1) (preload : Vector (Option Nat) 8)
    (cap : Option Nat) : launch image preload cap = .error .unalignedProgram := by
  rw [launch, if_pos h]

theorem launch_of_tooLarge {image : List Byte} (heven : image.length % 2 = 0) (hlarge : 65536 < image.length)
    (preload : Vector (Option Nat) 8) (cap : Option Nat) : launch image preload cap = .error .imageTooLarge := by
  rw [launch, if_neg (by omega), if_pos (show 32768 < image.length / 2 by omega)]

end Sys2Proof.Machine
end

section
/-! The statements about memory: what a step changes in it, what a `wmem` stores and what the next fetch sees. -/

namespace Sys2Proof.Machine

/-- Settles O10, by the memory's read-after-write rules. -/
theorem memoryReadsLastWrite : Obligations.MemoryReadsLastWrite := fun _ _ _ v h =>
  ⟨State.memRead_eq_none, fun ha => State.memRead_memWrite_same h ha v, fun hne => State.memRead_memWrite_other h hne v⟩

/-- Settles O24: no effect touches the configuration, and a large image is refused, as odd or as too large. -/
theorem memorySizeIsFixed : Obligations.MemorySizeIsFixed := by
  refine ⟨fun s t hs => ?_, fun image preload cap hlarge => ?_, fun _ _ _ _ hl => (launch_inv hl).memWords_le⟩
  · obtain ⟨-, ⟨k, -, rfl⟩ | ⟨i, -, hx⟩⟩ := step_next hs
    · exact State.raise_cfg s k
    · exact (exec_effect hx).cfg_eq
  · rcases Nat.mod_two_eq_zero_or_one image.length with heven | hodd
    · exact ⟨_, launch_of_tooLarge heven hlarge preload cap⟩
    · exact ⟨_, launch_of_odd hodd preload cap⟩

/-- Settles O25, by the memory rule of the effects; a fetch fault changes no memory. -/
theorem onlyWmemChangesMemory : Obligations.OnlyWmemChangesMemory := by
  intro s t hs hne
  obtain ⟨-, ⟨k, -, rfl⟩ | ⟨i, hi, hx⟩⟩ := step_next hs
  · exact absurd (State.raise_mem s k) hne
  · obtain ⟨a, b, rfl⟩ := (exec_effect hx).mem_cases.resolve_left hne
    exact ⟨a, b, hi⟩

/-- Settles O26: the cell a step stores to receives a 15-bit value, zero extended. -/
theorem stepsStoreOnly15BitValues : Obligations.StepsStoreOnly15BitValues := by
  intro s t k hwf hs
  obtain ⟨-, ⟨fk, -, rfl⟩ | ⟨i, -, hx⟩⟩ := step_next hs
  · exact .inl rfl
  · rcases (exec_effect hx).mem_eq_or_stored with hm | ⟨a, b, addr, v, -, -, -, hm⟩
    · exact .inl (congrArg (Memory.readCell · k) hm)
    · rw [hm, Memory.readCell_writeCell hwf]
      split
      · have hv := v.isLt
        rw [zext_toNat]
        exact .inr (by omega)
      · exact .inl rfl

/-- Settles O60: the bytes by the store rule of the effects, every other field because no effect of a `wmem` touches it. -/
theorem wmemChangesOnlyItsCell : Obligations.WmemChangesOnlyItsCell := by
  intro s t a b hwf hx
  have he := exec_effect hx
  have hregs : t.regs = s.regs := he.regs_cases.resolve_right fun h => by simp [WritesRegister, isRegisterForm] at h
  refine ⟨fun addr ha x h0 h1 => ?_, fun hnone x => ?_, fun j => by rw [State.readReg, hregs]; rfl,
    he.stack_eq nofun nofun nofun nofun, he.output_eq nofun, he.input_eq nofun, he.inputClosed_eq, he.cfg_eq,
    he.status_of_ne_halt nofun⟩
  · rcases he.mem_eq_or_stored with hm | ⟨_, _, addr', v, ⟨⟩, ha', -, hm⟩
    · rw [hm]
    · obtain rfl : addr = addr' := Option.some.inj (ha.symm.trans ha')
      rw [hm, Memory.readByte_writeCell_other hwf _ _ h0 h1]
  · rcases he.mem_eq_or_stored with hm | ⟨_, _, addr, v, ⟨⟩, ha, hb, -⟩
    · rw [hm]
    · simp [ha, hb] at hnone

/-- Settles O33: the cells at pc read as the words decoded, the stored one by read after write and every other as before. -/
theorem storeIsSeenByTheNextFetch : Obligations.StoreIsSeenByTheNextFetch := by
  intro s t u a b addr v ws i hwf ha hb hlt hx hum huc hur hcells hd
  obtain rfl : (s.memWrite addr.toNat (zext v)).fallThrough 2 = t := by
    simpa [exec_wmem_of_lt ha hb hlt] using hx
  have hread (x : Nat) : u.memRead x = (s.memWrite addr.toNat (zext v)).memRead x := State.memRead_congr huc hum x
  refine step_of_fetch hur (fetch_of_decode (fun k w hw => ?_) hd)
  obtain ⟨hstored, hkept⟩ := hcells k w hw
  rw [hread]
  by_cases hk : u.pc.toNat + k = addr.toNat
  · obtain rfl : w = zext v := BitVec.eq_of_toNat_eq ((hstored hk).trans (zext_toNat v).symm)
    rw [hk, State.memRead_memWrite_same hwf hlt]
  · rw [State.memRead_memWrite_other hwf hk, hkept hk]

end Sys2Proof.Machine
end

section
/-! Both directions of the round trip between instructions and words, and the three classes of an operand word. -/

namespace Sys2Proof

/-! ### From an instruction to its words and back -/

theorem takeOne_encodeOperand {mk : Operand → Instr} {a : Operand} (h : [a].all Operand.wellFormed = true)
    (rest : List Raw) : takeOne mk ([a].map encodeOperand ++ rest) = .ok (mk a, rest) := by
  have ha : a.wellFormed = true := by simpa using h
  simp [takeOne, classify_encodeOperand ha]

theorem takeTwo_encodeOperand {mk : Operand → Operand → Instr} {a b : Operand}
    (h : [a, b].all Operand.wellFormed = true) (rest : List Raw) :
    takeTwo mk ([a, b].map encodeOperand ++ rest) = .ok (mk a b, rest) := by
  obtain ⟨ha, hb⟩ : a.wellFormed = true ∧ b.wellFormed = true := by simpa using h
  simp [takeTwo, classify_encodeOperand ha, classify_encodeOperand hb]

theorem takeThree_encodeOperand {mk : Operand → Operand → Operand → Instr} {a b c : Operand}
    (h : [a, b, c].all Operand.wellFormed = true) (rest : List Raw) :
    takeThree mk ([a, b, c].map encodeOperand ++ rest) = .ok (mk a b c, rest) := by
  obtain ⟨ha, hb, hc⟩ : a.wellFormed = true ∧ b.wellFormed = true ∧ c.wellFormed = true := by simpa using h
  simp [takeThree, classify_encodeOperand ha, classify_encodeOperand hb, classify_encodeOperand hc]

/-- Settles O1, by the format of the instruction: its row of the opcode map reads as many operands as it has. -/
theorem decodeOfEncodeIsTheInstruction : Obligations.DecodeOfEncodeIsTheInstruction := by
  intro i rest h
  cases i with
  | halt | ret | noop => rfl
  | push a | pop a | jmp a | call a | out a | inp a => exact takeOne_encodeOperand h rest
  | set a b | jt a b | jf a b | not a b | rmem a b | wmem a b => exact takeTwo_encodeOperand h rest
  | eq a b c | gt a b c | add a b c | mult a b c | mod a b c | and a b c | or a b c =>
    exact takeThree_encodeOperand h rest

/-! ### From words to an instruction and back -/

/-- With at least the arity's number of words behind the opcode word, the decoder takes just that many (R62, R63). -/
theorem decode_of_le_length {op : Raw} {n : Nat} {ws : List Raw} (h : arity op = some n) (hl : n ≤ ws.length) :
    ∃ i, decode (op :: ws) = .ok (i, ws.drop n) ∧ i.operands = (ws.take n).map classify := by
  obtain ⟨i, hi, hd⟩ := takesOperands_decode h (ws.take n) (List.length_take_of_le hl)
  have hall : decode (op :: (ws.take n ++ ws.drop n)) = .ok (i, ws.drop n) := hd _
  rw [List.take_append_drop] at hall
  exact ⟨i, hall, hi⟩

/-- Settles O3, by the rules for enough and for too few words. -/
theorem decoderTakesArityManyWords : Obligations.DecoderTakesArityManyWords := fun _ _ =>
  ⟨arity_eq_none, fun _ hn => ⟨decode_of_le_length hn, decode_of_length_lt hn⟩⟩

theorem takeOne_eq_ok {mk : Operand → Instr} {ws rest : List Raw} {i : Instr} (h : takeOne mk ws = .ok (i, rest)) :
    ∃ a, i = mk a := by
  match ws, h with
  | a :: _, rfl => exact ⟨classify a, rfl⟩

theorem takeTwo_eq_ok {mk : Operand → Operand → Instr} {ws rest : List Raw} {i : Instr}
    (h : takeTwo mk ws = .ok (i, rest)) : ∃ a b, i = mk a b := by
  match ws, h with
  | a :: b :: _, rfl => exact ⟨classify a, classify b, rfl⟩

theorem takeThree_eq_ok {mk : Operand → Operand → Operand → Instr} {ws rest : List Raw} {i : Instr}
    (h : takeThree mk ws = .ok (i, rest)) : ∃ a b c, i = mk a b c := by
  match ws, h with
  | a :: b :: c :: _, rfl => exact ⟨classify a, classify b, classify c, rfl⟩

/-- Every row of the opcode map reads instructions of its own opcode only (R64). -/
theorem opcode_of_decode {op : Raw} {ws rest : List Raw} {i : Instr} (h : decode (op :: ws) = .ok (i, rest)) :
    i.opcode = op := by
  apply BitVec.eq_of_toNat_eq
  simp only [decode] at h
  split at h
  case h_1 hop | h_19 hop | h_22 hop => -- halt, ret, noop
    cases h
    exact hop.symm
  case h_3 hop | h_4 hop | h_7 hop | h_18 hop | h_20 hop | h_21 hop => -- push, pop, jmp, call, out, in
    obtain ⟨a, rfl⟩ := takeOne_eq_ok h
    exact hop.symm
  case h_2 hop | h_8 hop | h_9 hop | h_15 hop | h_16 hop | h_17 hop => -- set, jt, jf, not, rmem, wmem
    obtain ⟨a, b, rfl⟩ := takeTwo_eq_ok h
    exact hop.symm
  case h_5 hop | h_6 hop | h_10 hop | h_11 hop | h_12 hop | h_13 hop | h_14 hop => -- eq, gt, add, mult, mod, and, or
    obtain ⟨a, b, c, rfl⟩ := takeThree_eq_ok h
    exact hop.symm
  case h_23 => cases h -- no opcode

/-- Everything the decoder can read: an opcode word and operand words, of which it keeps the opcode and the classes. -/
theorem decode_eq_ok {ws rest : List Raw} {i : Instr} (h : decode ws = .ok (i, rest)) :
    ∃ as, ws = i.opcode :: (as ++ rest) ∧ i.operands = as.map classify := by
  cases ws with
  | nil => cases h
  | cons op ws =>
    obtain rfl := opcode_of_decode h
    cases hn : arity i.opcode with
    | none => rw [decode_of_large (arity_eq_none.1 hn)] at h; cases h
    | some n =>
      have hle : n ≤ ws.length := Nat.le_of_not_lt fun hlt => by rw [decode_of_length_lt hn hlt] at h; cases h
      obtain ⟨j, hj, hops⟩ := decode_of_le_length hn hle
      obtain ⟨rfl, rfl⟩ : j = i ∧ ws.drop n = rest := by simpa using hj.symm.trans h
      exact ⟨ws.take n, by rw [List.take_append_drop], hops⟩

/-- Settles O2: the operands are classes of words, which are well formed and lose no bit. -/
theorem encodeOfDecodeIsTheWords : Obligations.EncodeOfDecodeIsTheWords := by
  intro ws rest i h
  obtain ⟨as, rfl, hops⟩ := decode_eq_ok h
  constructor
  · simp [Instr.wellFormed, hops, wellFormed_classify]
  · have hid : encodeOperand ∘ classify = id := funext encodeOperand_classify
    rw [encode, hops, List.map_map, hid, List.map_id, List.cons_append]

/-- Settles O6, by running the decoder: it looks at none of the words that follow. -/
theorem knownWordsDecodeAsTheTableSays : Obligations.KnownWordsDecodeAsTheTableSays := fun _ =>
  ⟨rfl, rfl, rfl, rfl, rfl, rfl, rfl, rfl⟩

/-! ### The classes of an operand word -/

/-- A literal keeps the value of its word (R57). -/
theorem classify_eq_literal {w : Raw} (h : w.toNat ≤ 32767) : ∃ v : Word, classify w = .literal v ∧ v.toNat = w.toNat :=
  ⟨_, classify_literal h, by rw [BitVec.toNat_setWidth]; omega⟩

theorem classify_eq_register {w : Raw} {i : RegIdx} (h : w.toNat = 32768 + i.val) : classify w = .register i := by
  have hi := i.isLt
  rw [classify_register (by omega) (by omega), h, Nat.add_sub_cancel_left]
  exact congrArg Operand.register (Fin.ext (Nat.mod_eq_of_lt hi))

/-- Settles O4, by the rule of each class. -/
theorem operandWordClasses : Obligations.OperandWordClasses := by
  refine fun w => ⟨classify_eq_literal, fun hlow hhigh => ?_, classify_invalid⟩
  exact ⟨⟨w.toNat - 32768, by omega⟩, classify_eq_register (Nat.add_sub_of_le hlow).symm, rfl⟩

end Sys2Proof
end

section
/-! The statements about operand words and opcode words that no instruction accepts, and the operands that resolve. -/

namespace Sys2Proof.Machine

/-- Settles O5: the decoder and the fetch both refuse the word, and the step takes the fetch's fault. -/
theorem wordsAbove21AreUnknownOpcodes : Obligations.WordsAbove21AreUnknownOpcodes := fun _ hop =>
  ⟨decode_of_large hop, fun _ hr hread => step_of_fetchFault hr (fetch_of_unknown hread hop)⟩

/-- Settles O7, by the class of the word. -/
theorem sourceOperandsResolve : Obligations.SourceOperandsResolve := by
  refine fun s w => ⟨fun hlit => ?_, fun i hreg => ?_, fun hinv => ?_⟩
  · obtain ⟨v, hv, hval⟩ := classify_eq_literal hlit
    exact ⟨v, by rw [hv, resolveSrc], hval⟩
  · rw [classify_eq_register hreg, resolveSrc, State.readReg]
  · have hnone : resolveSrc s (classify w) = none := by rw [classify_invalid hinv, resolveSrc]
    exact ⟨hnone, withSource_of_none hnone⟩

/-- Settles O8, by the class of the word: a literal and an invalid word both name no register. -/
theorem destinationOperandsResolve : Obligations.DestinationOperandsResolve := by
  refine fun w => ⟨fun i hreg => resolveDst_eq_some.2 (classify_eq_register hreg), fun hnoReg => ?_⟩
  have hnone : resolveDst (classify w) = none := by
    rcases hnoReg with hlit | hinv
    · rw [classify_literal hlit, resolveDst]
    · rw [classify_invalid hinv, resolveDst]
  exact ⟨hnone, withDest_of_none hnone⟩

end Sys2Proof.Machine
end

section
/-! Where pc goes: an instruction that sets no target falls through to the address behind its own words. -/

namespace Sys2Proof.Machine

variable {s t : State} {i : Instr}

/-- Running `i` in `s` gives pc an explicit target: a branch that is taken, a `call` or a `ret` (R78 case 2). -/
def SetsTarget (s : State) (i : Instr) : Prop := (∃ b, Jumps s i b) ∨ (∃ a, i = .call a) ∨ i = .ret

/-- An effect that leaves the block Running, waits for no byte and sets no target is a fall-through (R78 case 3). -/
theorem Effect.pc_eq_nextIp (h : Effect s i t) (hr : t.status = .running)
    (hw : (∃ j, i = .inp (.register j)) → s.receive ≠ .notYet) (ht : ¬ SetsTarget s i) :
    t.pc = s.nextIp i.operands.length := by
  cases h with
  | raised | halted => cases hr
  | jumped hj => exact absurd (.inl ⟨_, hj⟩) ht
  | called a => exact absurd (.inr (.inl ⟨a, rfl⟩)) ht
  | returned => exact absurd (.inr (.inr rfl)) ht
  | waited j hn => exact absurd hn (hw ⟨j, rfl⟩)
  | notTaken hi => cases hi <;> rfl
  | _ => rfl

/-- The fall-through of a fetched instruction is the exact sum (R79, R19). -/
theorem fetch_nextIp_toNat (hm : s.cfg.memWords ≤ 32768) (h : fetch s = .ok i) :
    (s.nextIp i.operands.length).toNat = s.pc.toNat + 1 + i.operands.length := by
  have := fetch_within_memory h
  simp only [State.nextIp, BitVec.toNat_add, BitVec.toNat_ofNat]
  omega

theorem not_setsTarget_of_ne (hjmp : ∀ a, i ≠ .jmp a) (hjt : ∀ a b, i ≠ .jt a b) (hjf : ∀ a b, i ≠ .jf a b)
    (hcall : ∀ a, i ≠ .call a) (hret : i ≠ .ret) : ¬ SetsTarget s i := by
  rintro (⟨_, hj⟩ | ⟨a, hi⟩ | hi)
  · cases hj with
    | jmp => exact hjmp _ rfl
    | jt => exact hjt _ _ rfl
    | jf => exact hjf _ _ rfl
  · exact hcall a hi
  · exact hret hi

/-- A `jt` on 0 is not taken (R94). -/
theorem not_setsTarget_jt {a b : Operand} (ha : resolveSrc s a = some 0) : ¬ SetsTarget s (.jt a b) := by
  rintro (⟨_, hj⟩ | ⟨_, hi⟩ | hi)
  · cases hj with
    | jt _ hc hne => exact hne (Option.some.inj (hc.symm.trans ha))
  · cases hi
  · cases hi

/-- A `jf` on any value but 0 is not taken (R95). -/
theorem not_setsTarget_jf {a b : Operand} {v : Word} (ha : resolveSrc s a = some v) (hv : v ≠ 0) :
    ¬ SetsTarget s (.jf a b) := by
  rintro (⟨_, hj⟩ | ⟨_, hi⟩ | hi)
  · cases hj with
    | jf _ hc => exact hv (Option.some.inj (ha.symm.trans hc))
  · cases hi
  · cases hi

/-- Settles O32: the effect is a fall-through, whose sum is exact since the instruction's cells exist. -/
theorem fallThroughIsExact : Obligations.FallThroughIsExact := by
  intro s t i hm hf hs hrun hw
  obtain ⟨hr, ⟨k, -, rfl⟩ | ⟨i', hi', hx⟩⟩ := step_next hs
  · cases hrun
  obtain rfl : i = i' := Except.ok.inj (hf.symm.trans hi')
  have hreceive : (∃ j, i = .inp (.register j)) → s.receive ≠ .notYet := fun ⟨j, hj⟩ hn => hw ⟨hr, ⟨j, hj ▸ hf⟩, hn⟩
  have hexact (ht : ¬ SetsTarget s i) : t.pc.toNat = s.pc.toNat + 1 + i.operands.length := by
    rw [(exec_effect hx).pc_eq_nextIp hrun hreceive ht, fetch_nextIp_toNat hm hf]
  refine ⟨fun hjmp hjt hjf hcall hret => hexact (not_setsTarget_of_ne hjmp hjt hjf hcall hret), ?_, ?_⟩
  · rintro a b rfl ha
    exact hexact (not_setsTarget_jt ha)
  · rintro a b v rfl ha hv
    exact hexact (not_setsTarget_jf ha hv)

end Sys2Proof.Machine
end

section
/-! No instruction is refused: each shape of a meaning answers a next state, so every instruction does. -/

namespace Sys2Proof.Machine

variable {s : State}

theorem withSource_exists_next {a : Operand} {k : Word → Result} (hk : ∀ v, ∃ t, k v = .next t) :
    ∃ t, withSource a s k = .next t := by
  cases hr : resolveSrc s a with
  | some v => rw [withSource_of_some hr]; exact hk v
  | none => exact ⟨_, withSource_of_none hr k⟩

theorem withDest_exists_next {a : Operand} {k : RegIdx → Result} (hk : ∀ j, ∃ t, k j = .next t) :
    ∃ t, withDest a s k = .next t := by
  cases hr : resolveDst a with
  | some j => rw [withDest_of_some hr]; exact hk j
  | none => exact ⟨_, withDest_of_none hr s k⟩

theorem binaryOp_exists_next (f : Word → Word → Word) (a b c : Operand) : ∃ t, binaryOp f a b c s = .next t :=
  withDest_exists_next fun _ => withSource_exists_next fun _ => withSource_exists_next fun _ => ⟨_, rfl⟩

theorem unaryOp_exists_next (f : Word → Word) (a b : Operand) : ∃ t, unaryOp f a b s = .next t :=
  withDest_exists_next fun _ => withSource_exists_next fun _ => ⟨_, rfl⟩

/-- A check decides between two next states. -/
theorem ite_exists_next {p : Prop} [Decidable p] (t u : State) :
    ∃ v, (if p then .next t else .next u : Result) = .next v := by
  split
  · exact ⟨t, rfl⟩
  · exact ⟨u, rfl⟩

/-- Every instruction answers a next state, in every state (R83). -/
theorem exec_exists_next (i : Instr) (s : State) : ∃ t, exec i s = .next t := by
  cases i with
  | halt | noop => exact ⟨_, rfl⟩
  | set | not => exact unaryOp_exists_next _ _ _
  | eq | gt | add | mult | and | or => exact binaryOp_exists_next _ _ _ _
  | jmp | out => exact withSource_exists_next fun _ => ⟨_, rfl⟩
  | push | call => exact withSource_exists_next fun _ => ite_exists_next _ _
  | jt | jf | wmem => exact withSource_exists_next fun _ => withSource_exists_next fun _ => ite_exists_next _ _
  | mod =>
    exact withDest_exists_next fun _ => withSource_exists_next fun _ => withSource_exists_next fun _ =>
      ite_exists_next _ _
  | rmem =>
    refine withDest_exists_next fun _ => withSource_exists_next fun _ => ?_
    split <;> exact ⟨_, rfl⟩
  | pop | inp =>
    refine withDest_exists_next fun _ => ?_
    split <;> exact ⟨_, rfl⟩
  | ret =>
    simp only [exec, execRet]
    split <;> exact ⟨_, rfl⟩

/-- Settles O21: a fetch fault is a next state of its own, and a fetched instruction answers one. -/
theorem everyRunningStateHasANextState : Obligations.EveryRunningStateHasANextState := by
  refine ⟨exec_exists_next, fun s hr => ?_⟩
  cases hf : fetch s with
  | error k => exact ⟨_, step_of_fetchFault hr hf⟩
  | ok i => rw [step_of_fetch hr hf]; exact exec_exists_next i s

end Sys2Proof.Machine
end

section
/-! What a Running step fetches decides what it does: the decoded instruction, or a fetch fault. -/

namespace Sys2Proof.Machine

/-- Settles O18: the cells hold the words of `i`, so the fetch answers `i`. -/
theorem stepRunsTheDecodedInstruction : Obligations.StepRunsTheDecodedInstruction := fun _ _ _ hr hcells hd =>
  step_of_fetch hr (fetch_of_decode hcells hd)

/-- Settles O19, by the rule of each fetch fault; the k-th word behind the opcode word is operand word k - 1. -/
theorem fetchFaultsInOrder : Obligations.FetchFaultsInOrder := by
  intro s hr
  refine ⟨fun hpc => step_of_fetchFault hr (fetch_of_noOpcode hpc), fun op hop => ⟨fun hlarge => ?_, ?_⟩⟩
  · exact step_of_fetchFault hr (fetch_of_unknown hop hlarge)
  · intro n k hn hpos hk hmissing
    have hoperand : k - 1 < n := by omega
    exact step_of_fetchFault hr (fetch_of_missing hop hn hoperand (by omega))

end Sys2Proof.Machine
end

section
/-! The machine control instructions: `halt` and `noop` (41_machine_control.md). -/

namespace Sys2Proof.Machine

theorem exec_halt (s : State) : exec .halt s = .next s.halt := rfl

theorem exec_noop (s : State) : exec .noop s = .next (s.fallThrough 0) := rfl

/-- Settles O35: the word is the encoding of `halt`, and the effect sets the status alone. -/
theorem haltEndsTheRun : Obligations.HaltEndsTheRun :=
  ⟨decodeOfEncodeIsTheInstruction .halt [] rfl, exec_halt⟩

/-- Settles O36: the word is the encoding of `noop`, and the effect is a fall-through over no operands. -/
theorem noopOnlyAdvances : Obligations.NoopOnlyAdvances :=
  ⟨decodeOfEncodeIsTheInstruction .noop [] rfl, exec_noop⟩

end Sys2Proof.Machine
end

section
/-! The register and stack moves: `set`, `push` and `pop` (42_register_stack.md). -/

namespace Sys2Proof.Machine

variable {s : State} {a b : Operand}

/-! ### The format F2DS -/

theorem unaryOp_of_some {i : RegIdx} {v : Word} (ha : resolveDst a = some i) (hb : resolveSrc s b = some v)
    (f : Word → Word) : unaryOp f a b s = .next { s with pc := s.pc + 3, regs := s.regs.set i (f v) } := by
  rw [unaryOp, withDest_of_some ha, withSource_of_some hb, commitReg_eq, setWidth_zext]
  rfl

theorem unaryOp_of_none (h : resolveDst a = none ∨ resolveSrc s b = none) (f : Word → Word) :
    unaryOp f a b s = .next (s.raise .invalidOperand) := by
  cases ha : resolveDst a with
  | none => exact withDest_of_none ha s _
  | some i =>
    have hb : resolveSrc s b = none := h.resolve_left (by simp [ha])
    rw [unaryOp, withDest_of_some ha, withSource_of_none hb]

/-! ### `push` -/

theorem exec_push_of_notFull {v : Word} (ha : resolveSrc s a = some v) (hf : s.cfg.stackCap ≠ some s.stack.length) :
    exec (.push a) s = .next ((s.pushEntry (zext v)).fallThrough 1) := by
  rw [exec, execPush, withSource_of_some ha, if_neg (mt State.stackFull_iff.1 hf)]

theorem exec_push_of_full {v : Word} (ha : resolveSrc s a = some v) (hf : s.cfg.stackCap = some s.stack.length) :
    exec (.push a) s = .next (s.raise .stackOverflow) := by
  rw [exec, execPush, withSource_of_some ha, if_pos (State.stackFull_iff.2 hf)]

/-! ### `pop` -/

theorem exec_pop_of_cons {e : Raw} {rest : List Raw} (h : s.stack = e :: rest) (i : RegIdx) :
    exec (.pop (.register i)) s = commitReg s.dropTop i e 1 := by
  have htop : s.top = some e := State.top_eq_some.2 (by rw [h, List.tail_cons])
  rw [exec, execPop, withDest_of_some rfl, htop]

theorem exec_pop_of_empty (h : s.stack = []) (i : RegIdx) :
    exec (.pop (.register i)) s = .next (s.raise .stackUnderflow) := by
  rw [exec, execPop, withDest_of_some rfl, State.top_eq_none.2 h]

/-- The bits the masked register write keeps (R22), as a number. -/
theorem setWidth_eq_ofNat_mod (e : Raw) : e.setWidth 15 = BitVec.ofNat 15 (e.toNat % 32768) :=
  BitVec.eq_of_toNat_eq (by simp)

end Sys2Proof.Machine
end

section
/-! The statements about `set`, `push` and `pop`. -/

namespace Sys2Proof.Machine

/-- Settles O37: `set` is the format F2DS with the source's value unchanged. -/
theorem setStoresItsSource : Obligations.SetStoresItsSource :=
  ⟨fun _ _ => rfl, fun _ _ _ _ hb => unaryOp_of_some (resolveDst_eq_some.2 rfl) hb id,
    fun _ _ _ h => unaryOp_of_none h id⟩

/-- Settles O38, by whether the source resolves and the stack is full; the entry is the value zero-extended. -/
theorem pushAddsOneEntry : Obligations.PushAddsOneEntry := by
  refine ⟨fun _ => rfl, fun s a v ha hf => ?_, fun _ _ _ => exec_push_of_full, fun _ _ ha => withSource_of_none ha _⟩
  rw [exec_push_of_notFull ha hf, BitVec.ofNat_toNat]
  rfl

/-- Settles O39, by whether the destination resolves, before whether the stack holds an entry. -/
theorem popTakesTheTopEntry : Obligations.PopTakesTheTopEntry := by
  refine ⟨fun _ => rfl, fun s i e rest h => ?_, fun _ i h => exec_pop_of_empty h i, fun s _ ha => withDest_of_none ha s _⟩
  rw [exec_pop_of_cons h, commitReg_eq, setWidth_eq_ofNat_mod, State.dropTop, h]
  rfl

end Sys2Proof.Machine
end

section
/-! The format F3DSS and the comparisons: `eq` and `gt` (43_compare.md). -/

namespace Sys2Proof.Machine

variable {s : State} {a b c : Operand}

/-! ### The format F3DSS -/

theorem binaryOp_of_some {i : RegIdx} {vb vc : Word} (ha : resolveDst a = some i) (hb : resolveSrc s b = some vb)
    (hc : resolveSrc s c = some vc) (f : Word → Word → Word) :
    binaryOp f a b c s = .next { s with pc := s.pc + 4, regs := s.regs.set i (f vb vc) } := by
  rw [binaryOp, withDest_of_some ha, withSource_of_some hb, withSource_of_some hc, commitReg_eq, setWidth_zext]
  rfl

/-- The operands are resolved in order, so each case is the first that fails. -/
theorem binaryOp_of_none (h : resolveDst a = none ∨ resolveSrc s b = none ∨ resolveSrc s c = none)
    (f : Word → Word → Word) : binaryOp f a b c s = .next (s.raise .invalidOperand) := by
  cases ha : resolveDst a with
  | none => exact withDest_of_none ha s _
  | some i =>
    have hbc : resolveSrc s b = none ∨ resolveSrc s c = none := h.resolve_left (by simp [ha])
    rw [binaryOp, withDest_of_some ha]
    cases hb : resolveSrc s b with
    | none => exact withSource_of_none hb _
    | some vb =>
      have hc : resolveSrc s c = none := hbc.resolve_left (by simp [hb])
      rw [withSource_of_some hb, withSource_of_none hc]

/-! ### The comparators -/

theorem cmpEq_eq_ite (v w : Word) : cmpEq v w = if v = w then 1 else 0 := by
  simp only [cmpEq, ofTruth, decide_eq_true_eq, BitVec.toNat_inj]

theorem cmpGt_eq_ite (v w : Word) : cmpGt v w = if w.toNat < v.toNat then 1 else 0 := by
  simp only [cmpGt, ofTruth, decide_eq_true_eq, gt_iff_lt]

end Sys2Proof.Machine
end

section
/-! The statements about `eq` and `gt`. -/

namespace Sys2Proof.Machine

/-- Settles O40: `eq` is the format F3DSS with the comparator that tells equal words. -/
theorem eqWritesZeroOrOne : Obligations.EqWritesZeroOrOne := by
  refine ⟨fun _ _ _ => rfl, fun s i b c vb vc hb hc => ?_, fun _ _ _ _ h => binaryOp_of_none h cmpEq⟩
  rw [← cmpEq_eq_ite]
  exact binaryOp_of_some (resolveDst_eq_some.2 rfl) hb hc cmpEq

/-- Settles O41: `gt` is the format F3DSS with the comparator that orders words as unsigned numbers. -/
theorem gtComparesUnsigned : Obligations.GtComparesUnsigned := by
  refine ⟨fun _ _ _ => rfl, fun s i b c vb vc hb hc => ?_, fun _ _ _ _ h => binaryOp_of_none h cmpGt⟩
  rw [← cmpGt_eq_ite]
  exact binaryOp_of_some (resolveDst_eq_some.2 rfl) hb hc cmpGt

end Sys2Proof.Machine
end

section
/-! The control transfers: `jmp`, `jt`, `jf`, `call` and `ret` (44_control_transfer.md). -/

namespace Sys2Proof.Machine

variable {s : State} {a b : Operand}

/-- A target is a source's value as a number: nothing is checked and nothing masked (R80). -/
theorem State.jumpTo_zext (s : State) (t : Word) : s.jumpTo (zext t) = { s with pc := BitVec.ofNat 16 t.toNat } := by
  rw [BitVec.ofNat_toNat]
  rfl

/-! ### The branches -/

theorem exec_jmp_of_some {t : Word} (ha : resolveSrc s a = some t) :
    exec (.jmp a) s = .next { s with pc := BitVec.ofNat 16 t.toNat } := by
  rw [exec, execJmp, withSource_of_some ha, State.jumpTo_zext]

/-- Two sources are resolved before anything else is looked at, so the first that fails decides. -/
theorem withSource_withSource_of_none (h : resolveSrc s a = none ∨ resolveSrc s b = none)
    (k : Word → Word → Result) :
    (withSource a s fun v => withSource b s (k v)) = .next (s.raise .invalidOperand) := by
  cases ha : resolveSrc s a with
  | none => exact withSource_of_none ha _
  | some v =>
    have hb : resolveSrc s b = none := h.resolve_left (by simp [ha])
    rw [withSource_of_some ha, withSource_of_none hb]

theorem exec_jt_of_some {c t : Word} (ha : resolveSrc s a = some c) (hb : resolveSrc s b = some t) :
    exec (.jt a b) s = .next { s with pc := if c = 0 then s.pc + 3 else BitVec.ofNat 16 t.toNat } := by
  rw [exec, execJt, withSource_of_some ha, withSource_of_some hb, State.jumpTo_zext]
  by_cases hc : c = 0
  · rw [if_neg (mt isTrue_iff.1 (not_not.2 hc)), if_pos hc]
    rfl
  · rw [if_pos (isTrue_iff.2 hc), if_neg hc]

theorem exec_jf_of_some {c t : Word} (ha : resolveSrc s a = some c) (hb : resolveSrc s b = some t) :
    exec (.jf a b) s = .next { s with pc := if c = 0 then BitVec.ofNat 16 t.toNat else s.pc + 3 } := by
  rw [exec, execJf, withSource_of_some ha, withSource_of_some hb, State.jumpTo_zext]
  by_cases hc : c = 0
  · rw [if_neg (mt isTrue_iff.1 (not_not.2 hc)), if_pos hc]
  · rw [if_pos (isTrue_iff.2 hc), if_neg hc]
    rfl

/-! ### `call` -/

theorem exec_call_of_notFull {t : Word} (ha : resolveSrc s a = some t) (hf : s.cfg.stackCap ≠ some s.stack.length) :
    exec (.call a) s = .next { s with pc := BitVec.ofNat 16 t.toNat, stack := (s.pc + 2) :: s.stack } := by
  rw [exec, execCall, withSource_of_some ha, if_neg (mt State.stackFull_iff.1 hf), State.jumpTo_zext]
  rfl

theorem exec_call_of_full {t : Word} (ha : resolveSrc s a = some t) (hf : s.cfg.stackCap = some s.stack.length) :
    exec (.call a) s = .next (s.raise .stackOverflow) := by
  rw [exec, execCall, withSource_of_some ha, if_pos (State.stackFull_iff.2 hf)]

/-- The return address does not wrap: it is at most MEM_WORDS, which is at most 32768 (R96). -/
theorem toNat_returnAddress (hcells : s.pc.toNat + 1 < s.cfg.memWords) (hm : s.cfg.memWords ≤ 32768) :
    (s.pc + 2).toNat = s.pc.toNat + 2 := by
  bv_omega

/-! ### `ret` -/

theorem exec_ret_of_cons {e : Raw} {rest : List Raw} (h : s.stack = e :: rest) :
    exec .ret s = .next { s with pc := e, stack := rest } := by
  have htop : s.top = some e := State.top_eq_some.2 (by rw [h, List.tail_cons])
  rw [exec, execRet, htop, State.dropTop, h]
  rfl

theorem exec_ret_of_empty (h : s.stack = []) : exec .ret s = .next (s.raise .stackUnderflow) := by
  rw [exec, execRet, State.top_eq_none.2 h]

end Sys2Proof.Machine
end

section
/-! The statements about `jmp`, `jt`, `jf`, `call` and `ret`. -/

namespace Sys2Proof.Machine

/-- Settles O34: `call` leaves the address behind it on top of the stack before it, and `ret` takes that entry. -/
theorem retReturnsBehindItsCall : Obligations.RetReturnsBehindItsCall := by
  intro s t u a v ha hf hcall hstack
  rw [exec_call_of_notFull ha hf] at hcall
  injection hcall with ht
  subst ht
  exact ⟨by rw [BitVec.ofNat_toNat]; exact zext_toNat v, exec_ret_of_cons hstack⟩

/-- Settles O42, by whether the target resolves. -/
theorem jmpGoesToItsTarget : Obligations.JmpGoesToItsTarget :=
  ⟨fun _ => rfl, fun _ _ _ => exec_jmp_of_some, fun _ _ ha => withSource_of_none ha _⟩

/-- Settles O43: both operands resolve before the condition is tested, so an invalid target always faults. -/
theorem jtBranchesOnNonzero : Obligations.JtBranchesOnNonzero :=
  ⟨fun _ _ => rfl, fun _ _ _ _ _ => exec_jt_of_some, fun _ _ _ h => withSource_withSource_of_none h _⟩

/-- Settles O44: as for `jt`, with the two outcomes of the test exchanged. -/
theorem jfBranchesOnZero : Obligations.JfBranchesOnZero :=
  ⟨fun _ _ => rfl, fun _ _ _ _ _ => exec_jf_of_some, fun _ _ _ h => withSource_withSource_of_none h _⟩

/-- Settles O45, by whether the target resolves and the stack is full. -/
theorem callPushesTheAddressBehindIt : Obligations.CallPushesTheAddressBehindIt :=
  ⟨fun _ => rfl, fun _ _ _ ha hf => ⟨exec_call_of_notFull ha hf, toNat_returnAddress⟩,
    fun _ _ _ => exec_call_of_full, fun _ _ ha => withSource_of_none ha _⟩

/-- Settles O46, by whether the stack holds an entry. -/
theorem retGoesToTheTopEntry : Obligations.RetGoesToTheTopEntry :=
  ⟨decodeOfEncodeIsTheInstruction .ret [] rfl, fun _ _ _ => exec_ret_of_cons, fun _ => exec_ret_of_empty⟩

end Sys2Proof.Machine
end

section
/-! The ALU's results as numbers, and `mod` (45_arith_logic.md). -/

namespace Sys2Proof.Machine

variable {s : State} {a b c : Operand}

/-! ### The ALU -/

/-- The mask 0x7FFF keeps bits [14:0], which are all the bits a word has. -/
theorem ofNat_and_mask (n : Nat) : BitVec.ofNat 15 (n &&& 0x7FFF) = BitVec.ofNat 15 n := by
  have hmask : n &&& 0x7FFF = n % 2 ^ 15 := Nat.and_two_pow_sub_one_eq_mod n 15
  rw [hmask]
  exact BitVec.eq_of_toNat_eq (by simp)

theorem aluAdd_eq_ofNat_mod (v w : Word) : aluAdd v w = BitVec.ofNat 15 ((v.toNat + w.toNat) % 32768) := rfl

theorem aluMult_eq_ofNat_mod (v w : Word) : aluMult v w = BitVec.ofNat 15 ((v.toNat * w.toNat) % 32768) := rfl

theorem aluAnd_eq_ofNat_mask (v w : Word) : aluAnd v w = BitVec.ofNat 15 ((v.toNat &&& w.toNat) &&& 0x7FFF) := by
  rw [ofNat_and_mask, aluAnd, ← BitVec.toNat_and, BitVec.ofNat_toNat, BitVec.setWidth_eq]

theorem aluOr_eq_ofNat_mask (v w : Word) : aluOr v w = BitVec.ofNat 15 ((v.toNat ||| w.toNat) &&& 0x7FFF) := by
  rw [ofNat_and_mask, aluOr, ← BitVec.toNat_or, BitVec.ofNat_toNat, BitVec.setWidth_eq]

/-- The complement on 15 bits is the distance to the largest word (R107). -/
theorem aluNot_eq_ofNat_sub (v : Word) : aluNot v = BitVec.ofNat 15 (32767 - v.toNat) := by
  have hsub : (~~~ v).toNat = 32767 - v.toNat := BitVec.toNat_not
  rw [← hsub, aluNot, BitVec.ofNat_toNat, BitVec.setWidth_eq]

/-- The last reduction changes nothing: a remainder is at most the dividend, which is a word (R104). -/
theorem toNat_aluMod (v w : Word) : (aluMod v w).toNat = v.toNat % w.toNat := by
  have hlt : v.toNat % w.toNat < 32768 := (Nat.mod_le _ _).trans_lt v.isLt
  rw [aluMod, narrow, Nat.mod_eq_of_lt hlt, BitVec.toNat_ofNat, Nat.mod_eq_of_lt hlt]

/-! ### `mod` -/

theorem toNat_eq_zero {v : Word} : v.toNat = 0 ↔ v = 0 := BitVec.toNat_inj (y := 0)

theorem exec_mod_of_ne_zero {i : RegIdx} {vb vc : Word} (hb : resolveSrc s b = some vb) (hc : resolveSrc s c = some vc)
    (hne : vc ≠ 0) : exec (.mod (.register i) b c) s =
      .next { s with pc := s.pc + 4, regs := s.regs.set i (aluMod vb vc) } := by
  have hdivisor : vc.toNat ≠ 0 := mt toNat_eq_zero.1 hne
  rw [exec, execMod, withDest_of_some rfl, withSource_of_some hb, withSource_of_some hc, if_neg hdivisor, commitReg_eq,
    setWidth_zext]
  rfl

theorem exec_mod_of_zero {vb : Word} (hb : resolveSrc s b = some vb) (hc : resolveSrc s c = some 0) (i : RegIdx) :
    exec (.mod (.register i) b c) s = .next (s.raise .divideByZero) := by
  rw [exec, execMod, withDest_of_some rfl, withSource_of_some hb, withSource_of_some hc,
    if_pos (toNat_eq_zero.2 rfl)]

theorem exec_mod_of_none (h : resolveDst a = none ∨ resolveSrc s b = none ∨ resolveSrc s c = none) :
    exec (.mod a b c) s = .next (s.raise .invalidOperand) := by
  cases ha : resolveDst a with
  | none => exact withDest_of_none ha s _
  | some i =>
    have hbc : resolveSrc s b = none ∨ resolveSrc s c = none := h.resolve_left (by simp [ha])
    rw [exec, execMod, withDest_of_some ha, withSource_withSource_of_none hbc]

end Sys2Proof.Machine
end

section
/-! The statements about `add`, `mult`, `mod`, `and`, `or` and `not`. -/

namespace Sys2Proof.Machine

/-- Settles O47: `add` is the format F3DSS with the sum, reduced once. -/
theorem addIsModulo32768 : Obligations.AddIsModulo32768 := by
  refine ⟨fun _ _ _ => rfl, fun s i b c vb vc hb hc => ?_, fun _ _ _ _ h => binaryOp_of_none h aluAdd⟩
  rw [← aluAdd_eq_ofNat_mod]
  exact binaryOp_of_some (resolveDst_eq_some.2 rfl) hb hc aluAdd

/-- Settles O48: `mult` is the format F3DSS with the exact product, reduced once. -/
theorem multIsModulo32768 : Obligations.MultIsModulo32768 := by
  refine ⟨fun _ _ _ => rfl, fun s i b c vb vc hb hc => ?_, fun _ _ _ _ h => binaryOp_of_none h aluMult⟩
  rw [← aluMult_eq_ofNat_mod]
  exact binaryOp_of_some (resolveDst_eq_some.2 rfl) hb hc aluMult

/-- Settles O49, by whether every operand resolves, before whether the divisor is 0. -/
theorem modIsTheUnsignedRemainder : Obligations.ModIsTheUnsignedRemainder :=
  ⟨fun _ _ _ => rfl, fun _ _ _ _ vb vc hb hc hne => ⟨aluMod vb vc, toNat_aluMod vb vc, exec_mod_of_ne_zero hb hc hne⟩,
    fun _ i _ _ _ hb hc => exec_mod_of_zero hb hc i, fun _ _ _ _ => exec_mod_of_none⟩

/-- Settles O50: `and` is the format F3DSS with the bitwise AND, which the mask leaves as it is. -/
theorem andIsBitwise : Obligations.AndIsBitwise := by
  refine ⟨fun _ _ _ => rfl, fun s i b c vb vc hb hc => ?_, fun _ _ _ _ h => binaryOp_of_none h aluAnd⟩
  rw [← aluAnd_eq_ofNat_mask]
  exact binaryOp_of_some (resolveDst_eq_some.2 rfl) hb hc aluAnd

/-- Settles O51: `or` is the format F3DSS with the bitwise OR, which the mask leaves as it is. -/
theorem orIsBitwise : Obligations.OrIsBitwise := by
  refine ⟨fun _ _ _ => rfl, fun s i b c vb vc hb hc => ?_, fun _ _ _ _ h => binaryOp_of_none h aluOr⟩
  rw [← aluOr_eq_ofNat_mask]
  exact binaryOp_of_some (resolveDst_eq_some.2 rfl) hb hc aluOr

/-- Settles O52: `not` is the format F2DS with the complement, written as a subtraction. -/
theorem notIsTheComplementOn15Bits : Obligations.NotIsTheComplementOn15Bits := by
  refine ⟨fun _ _ => rfl, fun s i b vb hb => ?_, fun _ _ _ h => unaryOp_of_none h aluNot⟩
  rw [← aluNot_eq_ofNat_sub]
  exact unaryOp_of_some (resolveDst_eq_some.2 rfl) hb aluNot

end Sys2Proof.Machine
end

section
/-! Memory access: `rmem` and `wmem` (46_memory_access.md). -/

namespace Sys2Proof.Machine

variable {s : State} {a b : Operand}

/-! ### `rmem` -/

/-- A cell that exists is read, and its low 15 bits are what the register keeps (R22, R109). -/
theorem exec_rmem_of_lt {addr : Word} (hb : resolveSrc s b = some addr) (hlt : addr.toNat < s.cfg.memWords)
    (i : RegIdx) : exec (.rmem (.register i) b) s = commitReg s i (s.mem.readCell addr.toNat) 2 := by
  rw [exec, execRmem, withDest_of_some rfl, withSource_of_some hb, State.memRead, if_pos hlt]

theorem exec_rmem_of_le {addr : Word} (hb : resolveSrc s b = some addr) (hle : s.cfg.memWords ≤ addr.toNat)
    (i : RegIdx) : exec (.rmem (.register i) b) s = .next (s.raise .outOfBounds) := by
  rw [exec, execRmem, withDest_of_some rfl, withSource_of_some hb, State.memRead_eq_none.2 hle]

/-- The destination is resolved before the source, and both before the address is looked at (R76). -/
theorem exec_rmem_of_none (h : resolveDst a = none ∨ resolveSrc s b = none) :
    exec (.rmem a b) s = .next (s.raise .invalidOperand) := by
  cases ha : resolveDst a with
  | none => exact withDest_of_none ha s _
  | some i =>
    have hb : resolveSrc s b = none := h.resolve_left (by simp [ha])
    rw [exec, execRmem, withDest_of_some ha, withSource_of_none hb]

/-! ### `wmem` -/

theorem exec_wmem_of_le {addr v : Word} (ha : resolveSrc s a = some addr) (hb : resolveSrc s b = some v)
    (hle : s.cfg.memWords ≤ addr.toNat) : exec (.wmem a b) s = .next (s.raise .outOfBounds) := by
  rw [exec, execWmem, withSource_of_some ha, withSource_of_some hb, if_neg (Nat.not_lt.2 hle)]

end Sys2Proof.Machine
end

section
/-! The statements about `rmem` and `wmem`. -/

namespace Sys2Proof.Machine

/-- Settles O53, by whether both operands resolve, before whether the address exists. -/
theorem rmemReadsOneCell : Obligations.RmemReadsOneCell := by
  refine ⟨fun _ _ => rfl, fun s i b addr hb hlt => ?_, fun _ i _ _ hb hle => exec_rmem_of_le hb hle i,
    fun _ _ _ => exec_rmem_of_none⟩
  rw [exec_rmem_of_lt hb hlt, commitReg_eq, setWidth_eq_ofNat_mod]
  rfl

/-- Settles O54: the memory after a store is the old one with the cell written, which reads back by read after write. -/
theorem wmemWritesOneCell : Obligations.WmemWritesOneCell := by
  refine ⟨fun _ _ => rfl, fun s a b addr v hwf ha hb hlt => ?_, fun _ _ _ _ _ => exec_wmem_of_le,
    fun _ _ _ h => withSource_withSource_of_none h _⟩
  refine ⟨s.mem.writeCell addr.toNat (zext v), Memory.wf_writeCell hwf _ _, ?_, fun k hk => ?_,
    exec_wmem_of_lt ha hb hlt⟩
  · rw [Memory.readCell_writeCell hwf, if_pos rfl, zext_toNat]
  · rw [Memory.readCell_writeCell hwf, if_neg hk]

end Sys2Proof.Machine
end

section
/-! What no instruction but `in` looks at: the IN channel can be exchanged before it runs or after (R112, R131). -/

namespace Sys2Proof.Machine

/-- The same state in front of another host: what it has ready on the IN channel, and whether it has closed the source. -/
def State.withChannel (bytes : List Byte) (closed : Bool) (s : State) : State :=
  { s with input := bytes, inputClosed := closed }

/-- An answer with its next state, where there is one, changed by `f`. -/
def mapNext (f : State → State) : Result → Result
  | .next t => .next (f t)
  | .fault r => .fault r
  | .refused r => .refused r

variable {s : State} {bytes : List Byte} {closed : Bool}

/-! ### The fetch, the stack and the operands -/

theorem State.memRead_withChannel (addr : Nat) : (s.withChannel bytes closed).memRead addr = s.memRead addr := rfl

theorem State.memReadMany_withChannel (addr n : Nat) :
    (s.withChannel bytes closed).memReadMany addr n = s.memReadMany addr n := by
  induction n generalizing addr with
  | zero => rfl
  | succ n ih => simp only [State.memReadMany, ih, State.memRead_withChannel]

theorem fetch_withChannel : fetch (s.withChannel bytes closed) = fetch s := by
  have hpc : (s.withChannel bytes closed).pc = s.pc := rfl
  simp only [fetch, hpc, State.memRead_withChannel, State.memReadMany_withChannel]

theorem State.top_withChannel : (s.withChannel bytes closed).top = s.top := rfl

theorem resolveSrc_withChannel (a : Operand) : resolveSrc (s.withChannel bytes closed) a = resolveSrc s a := by
  cases a <;> rfl

theorem withSource_withChannel {a : Operand} {k k' : Word → Result}
    (hk : ∀ v, k' v = mapNext (State.withChannel bytes closed) (k v)) :
    withSource a (s.withChannel bytes closed) k' = mapNext (State.withChannel bytes closed) (withSource a s k) := by
  have hres := resolveSrc_withChannel (s := s) (bytes := bytes) (closed := closed) a
  cases hr : resolveSrc s a with
  | some v => rw [withSource_of_some hr, withSource_of_some (hres.trans hr), hk]
  | none => rw [withSource_of_none hr, withSource_of_none (hres.trans hr)]; rfl

theorem withDest_withChannel {a : Operand} {k k' : RegIdx → Result}
    (hk : ∀ j, k' j = mapNext (State.withChannel bytes closed) (k j)) :
    withDest a (s.withChannel bytes closed) k' = mapNext (State.withChannel bytes closed) (withDest a s k) := by
  cases hr : resolveDst a with
  | some j => rw [withDest_of_some hr, withDest_of_some hr, hk]
  | none => rw [withDest_of_none hr, withDest_of_none hr]; rfl

/-! ### The instructions -/

theorem binaryOp_withChannel (f : Word → Word → Word) (a b c : Operand) :
    binaryOp f a b c (s.withChannel bytes closed) = mapNext (State.withChannel bytes closed) (binaryOp f a b c s) :=
  withDest_withChannel fun _ => withSource_withChannel fun _ => withSource_withChannel fun _ => rfl

theorem unaryOp_withChannel (f : Word → Word) (a b : Operand) :
    unaryOp f a b (s.withChannel bytes closed) = mapNext (State.withChannel bytes closed) (unaryOp f a b s) :=
  withDest_withChannel fun _ => withSource_withChannel fun _ => rfl

/-- A check that both sides make alike decides between two pairs of answers. -/
theorem ite_eq_mapNext (p : Prop) [Decidable p] {f : State → State} {r r' q q' : Result} (hr : r' = mapNext f r)
    (hq : q' = mapNext f q) : (if p then r' else q') = mapNext f (if p then r else q) := by
  rw [hr, hq, apply_ite (mapNext f)]

/-- Every instruction but `in` does the same whatever the IN channel holds, and leaves it as it is. -/
theorem exec_withChannel {i : Instr} (hi : ∀ a, i ≠ .inp a) :
    exec i (s.withChannel bytes closed) = mapNext (State.withChannel bytes closed) (exec i s) := by
  cases i with
  | halt | noop => rfl
  | set | not => exact unaryOp_withChannel _ _ _
  | eq | gt | add | mult | and | or => exact binaryOp_withChannel _ _ _ _
  | jmp | out => exact withSource_withChannel fun _ => rfl
  | push | call => exact withSource_withChannel fun _ => ite_eq_mapNext _ rfl rfl
  | jt | jf | wmem => exact withSource_withChannel fun _ => withSource_withChannel fun _ => ite_eq_mapNext _ rfl rfl
  | mod =>
    exact withDest_withChannel fun _ => withSource_withChannel fun _ => withSource_withChannel fun _ =>
      ite_eq_mapNext _ rfl rfl
  | rmem a b =>
    refine withDest_withChannel fun j => withSource_withChannel fun addr => ?_
    rw [State.memRead_withChannel]
    cases s.memRead addr.toNat <;> rfl
  | pop a =>
    refine withDest_withChannel fun j => ?_
    rw [State.top_withChannel]
    cases s.top <;> rfl
  | ret =>
    rw [exec, execRet, exec, execRet, State.top_withChannel]
    cases s.top <;> rfl
  | inp a => exact absurd rfl (hi a)

end Sys2Proof.Machine
end

section
/-! The statements about the two channels over a step. -/

namespace Sys2Proof.Machine

/-- Settles O29, by the output and the input rule of the effects; a fetch fault touches neither channel. -/
theorem channelsMoveOneByteInOrder : Obligations.ChannelsMoveOneByteInOrder := by
  intro s t hs
  obtain ⟨-, ⟨k, -, rfl⟩ | ⟨i, hi, hx⟩⟩ := step_next hs
  · exact ⟨.inl rfl, .inl rfl, rfl⟩
  · have he := exec_effect hx
    refine ⟨he.output_cases.imp_right ?_, he.input_cases.imp_right ?_, he.inputClosed_eq⟩
    · rintro ⟨a, b, rfl, hb⟩
      exact ⟨a, b, hi, hb⟩
    · rintro ⟨a, c, rfl, hc⟩
      exact ⟨a, c, hi, hc⟩

/-- Settles O31: neither the fetch nor any instruction but `in` looks at the channel. -/
theorem onlyInDependsOnTheInputChannel : Obligations.OnlyInDependsOnTheInputChannel := by
  intro s t bytes closed hne hs
  have hfetch := fetch_withChannel (s := s) (bytes := bytes) (closed := closed)
  obtain ⟨hr, ⟨k, hk, rfl⟩ | ⟨i, hi, hx⟩⟩ := step_next hs
  · exact step_of_fetchFault hr (hfetch.trans hk)
  · have hnotIn : ∀ a, i ≠ .inp a := by
      rintro a rfl
      exact hne a hi
    calc step (s.withChannel bytes closed)
      _ = exec i (s.withChannel bytes closed) := step_of_fetch hr (hfetch.trans hi)
      _ = mapNext (State.withChannel bytes closed) (exec i s) := exec_withChannel hnotIn
      _ = .next (t.withChannel bytes closed) := by rw [hx, mapNext]

end Sys2Proof.Machine
end

section
/-! Input and output: `out` and `in` (47_io.md). -/

namespace Sys2Proof.Machine

variable {s : State}

/-- The bits `out` sends, as a number (R115). -/
theorem extractLsb'_low_eq_ofNat_mod (v : Word) : v.extractLsb' 0 8 = BitVec.ofNat 8 (v.toNat % 256) :=
  BitVec.eq_of_toNat_eq (by simp)

/-- A byte zero-extended to a cell's width and masked by the register write is the byte's own value (R22, R116). -/
theorem setWidth_setWidth_byte (c : Byte) : (c.setWidth 16).setWidth 15 = BitVec.ofNat 15 c.toNat := by
  rw [BitVec.setWidth_setWidth_of_le _ (by decide), BitVec.ofNat_toNat]

theorem exec_out_of_some {a : Operand} {v : Word} (ha : resolveSrc s a = some v) :
    exec (.out a) s = .next ((s.emit (v.extractLsb' 0 8)).fallThrough 1) := by
  rw [exec, execOut, withSource_of_some ha]

theorem exec_inp_of_cons {c : Byte} {rest : List Byte} (h : s.input = c :: rest) (i : RegIdx) :
    exec (.inp (.register i)) s = commitReg s.consume i (c.setWidth 16) 1 := by
  rw [exec, execInp, withDest_of_some rfl, State.receive_eq_byte.2 ⟨rest, h⟩]

theorem exec_inp_of_closed (h : s.input = []) (hc : s.inputClosed = true) (i : RegIdx) :
    exec (.inp (.register i)) s = .next (s.raise .inputExhausted) := by
  rw [exec, execInp, withDest_of_some rfl, State.receive_eq_endOfInput.2 ⟨h, hc⟩]

theorem exec_inp_of_open (h : s.input = []) (hc : s.inputClosed = false) (i : RegIdx) :
    exec (.inp (.register i)) s = .next s := by
  rw [exec, execInp, withDest_of_some rfl, State.receive_eq_notYet.2 ⟨h, hc⟩]

theorem State.hostLine_of_open (h : s.inputClosed = false) (lineTerminator line : List Byte) :
    s.hostLine lineTerminator line = { s with input := s.input ++ (line ++ lineTerminator) } :=
  State.hostSend_of_open h _

end Sys2Proof.Machine
end

section
/-! The statements about `out` and `in`. -/

namespace Sys2Proof.Machine

/-- Settles O55, by whether the source resolves. -/
theorem outEmitsTheLowByte : Obligations.OutEmitsTheLowByte := by
  refine ⟨fun _ => rfl, fun s a v ha => ?_, fun _ _ ha => withSource_of_none ha _⟩
  rw [exec_out_of_some ha, extractLsb'_low_eq_ofNat_mod]
  rfl

/-- Settles O56, by whether the destination resolves and then by what the channel answers. -/
theorem inTakesTheNextByteOrWaits : Obligations.InTakesTheNextByteOrWaits := by
  refine ⟨fun _ => rfl, fun s i c rest h => ?_, fun _ i h hc => exec_inp_of_closed h hc i,
    fun _ i h hc => exec_inp_of_open h hc i, fun s line lineTerminator h => ?_, fun s _ ha => withDest_of_none ha s _⟩
  · rw [exec_inp_of_cons h, commitReg_eq, setWidth_setWidth_byte, State.consume, h]
    rfl
  · rw [State.hostLine_of_open h, List.append_assoc]

end Sys2Proof.Machine
end

section
/-! What a faulting instruction leaves behind: the state before it, with the status changed. -/

namespace Sys2Proof.Machine

/-- Only a raise records a fault, so the effect of a faulting instruction is the raise itself (R127). -/
theorem Effect.eq_raise {s t : State} {i : Instr} (h : Effect s i t) (hr : s.status = .running) {k : FaultKind} {ip : Raw}
    (hk : t.status = .faulted k ip) : ip = s.pc ∧ t = s.raise k := by
  cases h with
  | raised => cases hk; exact ⟨rfl, rfl⟩
  | halted => cases hk
  | _ => cases hr.symm.trans hk

/-- Settles O23: a fetch fault and a faulting instruction are both a raise in the state the step started from. -/
theorem faultChangesOnlyTheStatus : Obligations.FaultChangesOnlyTheStatus := by
  intro s t k ip hs hk
  obtain ⟨hr, ⟨k', -, rfl⟩ | ⟨i, -, hx⟩⟩ := step_next hs
  · cases hk
    exact ⟨rfl, rfl⟩
  · exact (exec_effect hx).eq_raise hr hk

end Sys2Proof.Machine
end

section
/-! An operand its role forbids does not resolve, and the instruction then faults `InvalidOperand` (R76, R120). -/

namespace Sys2Proof.Machine

variable {s : State} {a b c : Operand}

theorem resolveSrc_eq_none : resolveSrc s a = none ↔ a.fits .source = false := by
  rw [← resolveSrc_isSome s, Option.isSome_eq_false_iff, Option.isNone_iff_eq_none]

theorem resolveDst_eq_none : resolveDst a = none ↔ a.fits .destination = false := by
  rw [← resolveDst_isSome, Option.isSome_eq_false_iff, Option.isNone_iff_eq_none]

/-- Every operand fits the role it is listed with. -/
def AllFit (ops : List (Role × Operand)) : Bool := ops.all fun p => p.2.fits p.1

theorem legal_eq_allFit (i : Instr) : i.legal = AllFit (i.roles.zip i.operands) := rfl

@[simp] theorem allFit_nil : AllFit [] = true := rfl

@[simp] theorem allFit_cons_eq_false {r : Role} {ops : List (Role × Operand)} :
    AllFit ((r, a) :: ops) = false ↔ a.fits r = false ∨ AllFit ops = false :=
  Bool.and_eq_false_iff

/-! ### The formats of R56, when not every operand fits its role -/

theorem unresolved_of_s (h : AllFit [(.source, a)] = false) : resolveSrc s a = none := by
  simpa [resolveSrc_eq_none] using h

theorem unresolved_of_d (h : AllFit [(.destination, a)] = false) : resolveDst a = none := by
  simpa [resolveDst_eq_none] using h

theorem unresolved_of_ss (h : AllFit [(.source, a), (.source, b)] = false) :
    resolveSrc s a = none ∨ resolveSrc s b = none := by
  simpa [resolveSrc_eq_none] using h

theorem unresolved_of_ds (h : AllFit [(.destination, a), (.source, b)] = false) :
    resolveDst a = none ∨ resolveSrc s b = none := by
  simpa [resolveDst_eq_none, resolveSrc_eq_none] using h

theorem unresolved_of_dss (h : AllFit [(.destination, a), (.source, b), (.source, c)] = false) :
    resolveDst a = none ∨ resolveSrc s b = none ∨ resolveSrc s c = none := by
  simpa [resolveDst_eq_none, resolveSrc_eq_none] using h

/-- The operand check comes before everything else an instruction does (R126). -/
theorem exec_of_not_legal {i : Instr} (h : i.legal = false) : exec i s = .next (s.raise .invalidOperand) := by
  rw [legal_eq_allFit] at h
  cases i with
  | halt | ret | noop => cases h
  | push | jmp | call | out => exact withSource_of_none (unresolved_of_s h) _
  | pop | inp => exact withDest_of_none (unresolved_of_d h) s _
  | jt | jf | wmem => exact withSource_withSource_of_none (unresolved_of_ss h) _
  | set | not => exact unaryOp_of_none (unresolved_of_ds h) _
  | rmem => exact exec_rmem_of_none (unresolved_of_ds h)
  | eq | gt | add | mult | and | or => exact binaryOp_of_none (unresolved_of_dss h) _
  | mod => exact exec_mod_of_none (unresolved_of_dss h)

end Sys2Proof.Machine
end

section
/-! The fault an instruction has of its own, with its cause (R117), and what a meaning whose operands resolve can fault with. -/

namespace Sys2Proof.Machine

/-- `OwnFault s i k`: the cause of the fault `k` that `i` has of its own holds in `s` (R117, R118, R121 to R124). -/
inductive OwnFault (s : State) : Instr → FaultKind → Prop where
  | popEmpty (a : Operand) (h : s.stack = []) : OwnFault s (.pop a) .stackUnderflow
  | retEmpty (h : s.stack = []) : OwnFault s .ret .stackUnderflow
  | pushFull (a : Operand) (h : s.cfg.stackCap = some s.stack.length) : OwnFault s (.push a) .stackOverflow
  | callFull (a : Operand) (h : s.cfg.stackCap = some s.stack.length) : OwnFault s (.call a) .stackOverflow
  | readOutside (a : Operand) {b : Operand} {addr : Word} (hb : resolveSrc s b = some addr)
      (h : s.cfg.memWords ≤ addr.toNat) : OwnFault s (.rmem a b) .outOfBounds
  | writeOutside {a : Operand} (b : Operand) {addr : Word} (ha : resolveSrc s a = some addr)
      (h : s.cfg.memWords ≤ addr.toNat) : OwnFault s (.wmem a b) .outOfBounds
  | zeroDivisor (a b : Operand) {c : Operand} (hc : resolveSrc s c = some 0) : OwnFault s (.mod a b c) .divideByZero
  | noMoreInput (a : Operand) (h : s.input = []) (hc : s.inputClosed = true) : OwnFault s (.inp a) .inputExhausted

/-- A next state that the answer `r` gives records a fault only of a kind in `P`. -/
def FaultsOnlyIn (P : FaultKind → Prop) (r : Result) : Prop :=
  ∀ (t : State) (k : FaultKind) (ip : Raw), r = .next t → t.status = .faulted k ip → P k

variable {s : State} {P : FaultKind → Prop}

theorem faultsOnlyIn_of_safe {t : State} (h : t.Safe) : FaultsOnlyIn P (.next t) := by
  rintro _ k ip ⟨⟩ hk
  exact absurd hk (h k ip)

theorem faultsOnlyIn_raise {k : FaultKind} (h : P k) : FaultsOnlyIn P (.next (s.raise k)) := by
  rintro _ _ _ ⟨⟩ ⟨⟩
  exact h

theorem faultsOnlyIn_ite {p : Prop} [Decidable p] {r q : Result} (hr : p → FaultsOnlyIn P r)
    (hq : ¬ p → FaultsOnlyIn P q) : FaultsOnlyIn P (if p then r else q) := by
  split
  · next h => exact hr h
  · next h => exact hq h

/-- A source that fits its role raises nothing, so only what follows it can fault. -/
theorem faultsOnlyIn_withSource {a : Operand} {k : Word → Result} (ha : a.fits .source = true)
    (hk : ∀ v, resolveSrc s a = some v → FaultsOnlyIn P (k v)) : FaultsOnlyIn P (withSource a s k) := by
  obtain ⟨v, hv⟩ := Option.isSome_iff_exists.1 ((resolveSrc_isSome s a).trans ha)
  rw [withSource_of_some hv]
  exact hk v hv

theorem faultsOnlyIn_withDest {a : Operand} {k : RegIdx → Result} (ha : a.fits .destination = true)
    (hk : ∀ j, FaultsOnlyIn P (k j)) : FaultsOnlyIn P (withDest a s k) := by
  obtain ⟨j, hj⟩ := Option.isSome_iff_exists.1 ((resolveDst_isSome a).trans ha)
  rw [withDest_of_some hj]
  exact hk j

theorem fits_of_legal {i : Instr} (h : i.legal = true) {r : Role} {a : Operand}
    (ha : (r, a) ∈ i.roles.zip i.operands) : a.fits r = true :=
  List.all_eq_true.1 h _ ha

/-- A Running state has recorded no fault. -/
theorem State.safe_of_running (hr : s.status = .running) : s.Safe := fun _ _ hk => by cases hr.symm.trans hk

/-- With legal operands an instruction faults only for its own cause (R117, R126). -/
theorem exec_faultsOnlyIn_ownFault {i : Instr} (hl : i.legal = true) (hs : s.Safe) :
    FaultsOnlyIn (OwnFault s i) (exec i s) := by
  have fits₁ {r a p} (h : i.roles.zip i.operands = (r, a) :: p) : a.fits r = true :=
    fits_of_legal hl (h ▸ .head _)
  have fits₂ {r a p q} (h : i.roles.zip i.operands = p :: (r, a) :: q) : a.fits r = true :=
    fits_of_legal hl (h ▸ .tail _ (.head _))
  have fits₃ {r a p q u} (h : i.roles.zip i.operands = p :: q :: (r, a) :: u) : a.fits r = true :=
    fits_of_legal hl (h ▸ .tail _ (.tail _ (.head _)))
  cases i with
  | halt => exact faultsOnlyIn_of_safe nofun
  | noop => exact faultsOnlyIn_of_safe hs
  | set | not =>
    exact faultsOnlyIn_withDest (fits₁ rfl) fun _ => faultsOnlyIn_withSource (fits₂ rfl) fun _ _ =>
      faultsOnlyIn_of_safe hs
  | eq | gt | add | mult | and | or =>
    exact faultsOnlyIn_withDest (fits₁ rfl) fun _ => faultsOnlyIn_withSource (fits₂ rfl) fun _ _ =>
      faultsOnlyIn_withSource (fits₃ rfl) fun _ _ => faultsOnlyIn_of_safe hs
  | jmp | out => exact faultsOnlyIn_withSource (fits₁ rfl) fun _ _ => faultsOnlyIn_of_safe hs
  | jt | jf =>
    exact faultsOnlyIn_withSource (fits₁ rfl) fun _ _ => faultsOnlyIn_withSource (fits₂ rfl) fun _ _ =>
      faultsOnlyIn_ite (fun _ => faultsOnlyIn_of_safe hs) fun _ => faultsOnlyIn_of_safe hs
  | push a =>
    exact faultsOnlyIn_withSource (fits₁ rfl) fun _ _ =>
      faultsOnlyIn_ite (fun hf => faultsOnlyIn_raise (.pushFull a (State.stackFull_iff.1 hf))) fun _ =>
        faultsOnlyIn_of_safe hs
  | call a =>
    exact faultsOnlyIn_withSource (fits₁ rfl) fun _ _ =>
      faultsOnlyIn_ite (fun hf => faultsOnlyIn_raise (.callFull a (State.stackFull_iff.1 hf))) fun _ =>
        faultsOnlyIn_of_safe hs
  | wmem a b =>
    exact faultsOnlyIn_withSource (fits₁ rfl) fun _ ha => faultsOnlyIn_withSource (fits₂ rfl) fun _ _ =>
      faultsOnlyIn_ite (fun _ => faultsOnlyIn_of_safe hs) fun hge =>
        faultsOnlyIn_raise (.writeOutside b ha (Nat.le_of_not_lt hge))
  | mod a b c =>
    exact faultsOnlyIn_withDest (fits₁ rfl) fun _ => faultsOnlyIn_withSource (fits₂ rfl) fun _ _ =>
      faultsOnlyIn_withSource (fits₃ rfl) fun _ hc => faultsOnlyIn_ite
        (fun hz => faultsOnlyIn_raise (.zeroDivisor a b (toNat_eq_zero.1 hz ▸ hc))) fun _ => faultsOnlyIn_of_safe hs
  | rmem a b =>
    refine faultsOnlyIn_withDest (fits₁ rfl) fun _ => faultsOnlyIn_withSource (fits₂ rfl) fun addr hb => ?_
    cases hread : s.memRead addr.toNat with
    | none => exact faultsOnlyIn_raise (.readOutside a hb (State.memRead_eq_none.1 hread))
    | some m => exact faultsOnlyIn_of_safe hs
  | pop a =>
    refine faultsOnlyIn_withDest (fits₁ rfl) fun _ => ?_
    cases htop : s.top with
    | none => exact faultsOnlyIn_raise (.popEmpty a (State.top_eq_none.1 htop))
    | some e => exact faultsOnlyIn_of_safe hs
  | ret =>
    rw [exec, execRet]
    cases htop : s.top with
    | none => exact faultsOnlyIn_raise (.retEmpty (State.top_eq_none.1 htop))
    | some e => exact faultsOnlyIn_of_safe hs
  | inp a =>
    refine faultsOnlyIn_withDest (fits₁ rfl) fun _ => ?_
    cases hanswer : s.receive with
    | notYet | byte => exact faultsOnlyIn_of_safe hs
    | endOfInput =>
      obtain ⟨hempty, hclosed⟩ := State.receive_eq_endOfInput.1 hanswer
      exact faultsOnlyIn_raise (.noMoreInput a hempty hclosed)

/-- Settles O30: an illegal operand is refused before anything else, and a legal instruction faults only for its own cause. -/
theorem operandFaultsComeBeforeTheInstructionsOwn : Obligations.OperandFaultsComeBeforeTheInstructionsOwn := by
  intro s i hr hf
  rw [step_of_fetch hr hf]
  refine ⟨exec_of_not_legal, fun hl t k ip hx hk => ?_⟩
  cases exec_faultsOnlyIn_ownFault hl (State.safe_of_running hr) t k ip hx hk with
  | popEmpty a h => exact .inl ⟨rfl, .inl ⟨a, rfl⟩, h⟩
  | retEmpty h => exact .inl ⟨rfl, .inr rfl, h⟩
  | pushFull a h => exact .inr (.inl ⟨rfl, ⟨a, .inl rfl⟩, h⟩)
  | callFull a h => exact .inr (.inl ⟨rfl, ⟨a, .inr rfl⟩, h⟩)
  | readOutside a hb h => exact .inr (.inr (.inl ⟨rfl, a, _, _, .inl ⟨rfl, hb⟩, h⟩))
  | writeOutside b ha h => exact .inr (.inr (.inl ⟨rfl, _, b, _, .inr ⟨rfl, ha⟩, h⟩))
  | zeroDivisor a b hc => exact .inr (.inr (.inr (.inl ⟨rfl, a, b, _, rfl, hc⟩)))
  | noMoreInput a h hc => exact .inr (.inr (.inr (.inr ⟨rfl, a, rfl, h, hc⟩)))

end Sys2Proof.Machine
end

section
/-! The launch: what an accepted image's bytes and the preloads become (R38, R139, R143). -/

namespace Sys2Proof.Machine

/-- Two bytes side by side, as a number, the low one second (R45). -/
theorem toNat_append_byte (hi lo : Byte) : (hi ++ lo : BitVec (8 + 8)).toNat = lo.toNat + 256 * hi.toNat := by
  rw [BitVec.toNat_append, ← Nat.shiftLeft_add_eq_or_of_lt lo.isLt, Nat.shiftLeft_eq]
  omega

/-- A cell of an image's memory is two of its bytes, the low one first in the image (R139 step 3). -/
theorem Memory.readCell_ofBytes {image : List Byte} {k : Nat} {lo hi : Byte} (hlo : image[2 * k]? = some lo)
    (hhi : image[2 * k + 1]? = some hi) : (Memory.ofBytes 0 image).readCell k = hi ++ lo := by
  have hread (j : Nat) : (Memory.ofBytes 0 image).readByte j = image[j]?.getD Memory.unlisted := by
    simpa using Memory.readByte_ofBytes 0 image j
  rw [Memory.readCell, hread, hread, hlo, hhi, Option.getD_some, Option.getD_some]

theorem toNat_preloaded (p : Option Nat) : (preloaded p).toNat = p.getD 0 % 32768 := by
  cases p with
  | none => rfl
  | some v => exact BitVec.toNat_ofNat v 15

/-- The state R38 lists, for an image that is accepted. -/
def launched (image : List Byte) (preload : Vector (Option Nat) 8) (cap : Option Nat) : State where
  cfg := { memWords := image.length / 2, stackCap := cap }
  pc := 0
  regs := preload.map preloaded
  stack := []
  mem := Memory.ofBytes 0 image
  status := .running
  output := []
  input := []
  inputClosed := false

theorem launch_of_accepted {image : List Byte} (heven : image.length % 2 = 0) (hsize : image.length ≤ 65536)
    (preload : Vector (Option Nat) 8) (cap : Option Nat) :
    launch image preload cap = .ok (launched image preload cap) := by
  have hregs : #v[preloaded preload[0], preloaded preload[1], preloaded preload[2], preloaded preload[3],
      preloaded preload[4], preloaded preload[5], preloaded preload[6], preloaded preload[7]] = preload.map preloaded := by
    ext j hj
    interval_cases j <;> simp
  rw [launch, if_neg (by omega), if_neg (show ¬ 32768 < image.length / 2 by omega), hregs, launched]

/-- Settles O11, by the image's length; a cell exists in memory where both its bytes exist in the image. -/
theorem launchBuildsTheListedState : Obligations.LaunchBuildsTheListedState := by
  refine fun image preload cap => ⟨fun hodd => launch_of_odd hodd preload cap,
    fun heven hlarge => launch_of_tooLarge heven hlarge preload cap, fun heven hsize => ?_⟩
  refine ⟨_, launch_of_accepted heven hsize preload cap, rfl, rfl, rfl, rfl, rfl, rfl, rfl, fun i => ?_,
    fun k lo hi hlo hhi => ?_⟩
  · simpa [launched] using toNat_preloaded preload[i]
  · have hlast : 2 * k + 1 < image.length := (List.getElem?_eq_some_iff.1 hhi).1
    have hexists : k < image.length / 2 := by omega
    exact ⟨hi ++ lo, State.memRead_eq_some.2 ⟨hexists, Memory.readCell_ofBytes hlo hhi⟩, toNat_append_byte hi lo⟩

/-- Settles O12: the launched state is Running at pc 0, and has no cell there. -/
theorem emptyImageFaultsAtOnce : Obligations.EmptyImageFaultsAtOnce := by
  intro preload cap
  refine ⟨_, launch_of_accepted rfl (Nat.zero_le _) preload cap, rfl, ?_⟩
  exact step_of_fetchFault rfl (fetch_of_noOpcode (Nat.zero_le _))

end Sys2Proof.Machine
end
